-- ==== Sys2Proof/Word.lean ====
section
/-! DEFINITION. The two bit-vector widths of the block: a frame-buffer byte (00_scope.md R9) and a 32-bit command or
response word (30_encoding.md R70, R78). -/

namespace Sys2Proof

/-- A byte: 8 bits, numbered 7 (most significant) down to 0 (R9). -/
abbrev Byte := BitVec 8

/-- A command or response word: 32 bits, bit 31 the most significant (R70, R78). -/
abbrev Word := BitVec 32

end Sys2Proof
end

