-- ==== Sys2Proof/Syntax.lean ====
section
/-! DEFINITION. The commands of the block: one constructor per row of spec/opcode_table.json. -/

namespace Sys2Proof

/-- A decoded command (30_encoding.md R71, R75). Coordinates are naturals, as the pseudocode's operands are (R101,
R102); the ones a word can carry are those `Instr.wellFormed` admits. -/
inductive Instr where
  /-- `REFRESH` (R72, R140). -/
  | refresh
  /-- `SETPIXEL p, x, y, on` (R73, R101). -/
  | setPixel (p x y : Nat) (on : Bool)
  /-- `GETPIXEL p, x, y` (R74, R102). -/
  | getPixel (p x y : Nat)
  deriving DecidableEq, Repr

end Sys2Proof
end

