-- ==== Sys2Proof/WellFormed.lean ====
section
/-! DEFINITION. Which commands a command word can carry: each coordinate fits its 8-bit field (30_encoding.md R70,
R75). Coordinates beyond the panel are well formed: they are encodable and answer OUT_OF_RANGE when executed (R75). -/

namespace Sys2Proof

/-- The coordinate fits an 8-bit field (R75: the encodable ranges are 0..255). -/
def fitsField (v : Nat) : Bool := decide (v ≤ 255)

/-- Every operand of the command fits its field (R75). An operand above 255 "produces no word" (R80). -/
def Instr.wellFormed : Instr → Bool
  | .refresh => true
  | .setPixel p x y _ => fitsField p && fitsField x && fitsField y
  | .getPixel p x y => fitsField p && fitsField x && fitsField y

end Sys2Proof
end

