-- ==== Sys2Proof/Decode.lean ====
section
/-! DEFINITION. Command words: their fields, the decoder with its illegal cases by name, the encoder, and the host's
view of the decoder (30_encoding.md R70 to R77, R84). -/

namespace Sys2Proof

/-- Why a word is illegal: the four cases of R76. -/
inductive IllegalWord where
  /-- (a) OP ∈ 0x0, 0x4, …, 0xF. -/
  | reservedOp
  /-- (b) OP = 0x1 and `w[27:0] ≠ 0`. -/
  | refreshNotPlain
  /-- (c) OP = 0x2 and `w[27:25] ≠ 0`. -/
  | setPixelReserved
  /-- (d) OP = 0x3 and `w[27:24] ≠ 0`. -/
  | getPixelReserved
  deriving DecidableEq, Repr

/-- OP, `w[31:28]` (R70). -/
def opField (w : Word) : BitVec 4 := w.extractLsb' 28 4

/-- RSV, `w[27:25]` (R70). -/
def rsvField (w : Word) : BitVec 3 := w.extractLsb' 25 3

/-- ON, `w[24]` (R70, R75). -/
def onField (w : Word) : Bool := w.getLsbD 24

/-- PANEL, `w[23:16]`, zero-extended (R70, R75). -/
def panelField (w : Word) : Nat := (w.extractLsb' 16 8).toNat

/-- X, `w[15:8]`, zero-extended (R70, R75). -/
def xField (w : Word) : Nat := (w.extractLsb' 8 8).toNat

/-- Y, `w[7:0]`, zero-extended (R70, R75). -/
def yField (w : Word) : Nat := (w.extractLsb' 0 8).toNat

/-- REFRESH is exactly `0x10000000` (R72, R76 b). -/
def decodeRefresh (w : Word) : Except IllegalWord Instr :=
  if w.extractLsb' 0 28 = 0#28 then .ok .refresh else .error .refreshNotPlain

/-- SETPIXEL: RSV must be 0 (R73, R76 c). -/
def decodeSetPixel (w : Word) : Except IllegalWord Instr :=
  if rsvField w = 0#3 then .ok (.setPixel (panelField w) (xField w) (yField w) (onField w)) else .error .setPixelReserved

/-- GETPIXEL: RSV and ON must be 0 (R70, R74, R76 d). -/
def decodeGetPixel (w : Word) : Except IllegalWord Instr :=
  if w.extractLsb' 24 4 = 0#4 then .ok (.getPixel (panelField w) (xField w) (yField w)) else .error .getPixelReserved

/-- The decoder: the legality check of R76, then the operands of R75. No range check takes place here (R77). -/
def decode (w : Word) : Except IllegalWord Instr :=
  if opField w = 1#4 then decodeRefresh w
  else if opField w = 2#4 then decodeSetPixel w
  else if opField w = 3#4 then decodeGetPixel w
  else .error .reservedOp

/-- The one format, C (R70), with RSV = 0: OP, RSV, ON, PANEL, X, Y from bit 31 down. -/
def packWord (op : BitVec 4) (on : Bool) (p x y : Nat) : Word :=
  op ++ 0#3 ++ BitVec.ofBool on ++ BitVec.ofNat 8 p ++ BitVec.ofNat 8 x ++ BitVec.ofNat 8 y

/-- OP of a command (R71). -/
def Instr.op : Instr → BitVec 4
  | .refresh => 1#4
  | .setPixel _ _ _ _ => 2#4
  | .getPixel _ _ _ => 3#4

/-- The word of a well-formed command (R72, R73, R74). -/
def encode (i : Instr) : Word :=
  match i with
  | .refresh => packWord i.op false 0 0 0
  | .setPixel p x y on => packWord i.op on p x y
  | .getPixel p x y => packWord i.op false p x y

/-- The host's view of the decoder: the instruction it reads from a word whose low `nbits` bits are `w`'s. A command word
has no byte order of its own (R70), so bit 0 of the table is bit 0 of the word. -/
def decodeTableWord (nbits w : Nat) : Option Instr :=
  (decode (BitVec.ofNat 32 (w % 2 ^ nbits))).toOption

end Sys2Proof
end

