-- ==== Sys2Proof/Config.lean ====
section
/-! DEFINITION. What an implementation fixes at reset (the launch parameters, 00_scope.md R6 and R8) and the free values:
what the spec leaves open and nothing in this model decides. -/

namespace Sys2Proof

/-- What a refresh trigger does while a refresh runs (R8, R141, R142; D13). -/
inductive OverlapPolicy where
  | drop
  | queue1
  deriving DecidableEq, Repr, Inhabited

/-- The launch parameters that reset takes (R6, R8, R200). `spiClock` and `spiMode` are opaque tokens: only their
identity is used, in the `CfgFreq` and `CfgMode` events. The three levels map logical pin values to wire levels and no
rule reads them (R8, R11). -/
structure Params where
  /-- `P` = totalPanels (R6). -/
  panels : Nat
  /-- SPI_CLOCK (R8, D12). -/
  spiClock : Nat
  /-- SPI_MODE (R8, D12, D24). -/
  spiMode : Nat
  /-- OVERLAP_POLICY (R8, D13). -/
  overlap : OverlapPolicy
  /-- HAS_BUSY_INPUT (R8, R32, D11). -/
  hasBusyInput : Bool
  /-- OE_ACTIVE_LEVEL (R8, R28, D15). -/
  oeActiveLevel : Bool
  /-- LATCH_ACTIVE_LEVEL (R8, R29, D15). -/
  latchActiveLevel : Bool
  /-- BUSY_ACTIVE_LEVEL (R8, D11). -/
  busyActiveLevel : Bool
  deriving DecidableEq, Repr

/-- FREE VALUE: the byte at an index of the frame buffer that nothing has written since the reset whose draw of contents
has this number (R201, D18, U4). Log entry 3. -/
opaque Config.resetByte : (draw index : Nat) → Byte

/-- FREE VALUE: when both agents are enabled and the environment's list of turns is used up, whether the command port
(true) or the ScanEngine (false) steps (R155). Log entry 4. -/
opaque Config.portFirst : (draw : Nat) → Bool

/-- FREE VALUE: the logical BUS_BUSY value of a draw for which the environment's list is used up (R32, R143, U6).
Log entry 5. -/
opaque Config.freeBusy : (draw : Nat) → Bool

/-- OPEN parameter SPI_CLOCK of the one `State.reset` (R8, D12, U5). Log entry 2. -/
opaque Config.spiClock : Nat

/-- OPEN parameter SPI_MODE of the one `State.reset` (R8, D12, U5). Log entry 2. -/
opaque Config.spiMode : Nat

/-- OPEN parameter OVERLAP_POLICY of the one `State.reset` (R8, D13, U2). Log entry 2. -/
opaque Config.overlap : OverlapPolicy

/-- OPEN parameter OE_ACTIVE_LEVEL of the one `State.reset` (R8, D15, U7). Log entry 2. -/
opaque Config.oeActiveLevel : Bool

/-- OPEN parameter LATCH_ACTIVE_LEVEL of the one `State.reset` (R8, D15, U7). Log entry 2. -/
opaque Config.latchActiveLevel : Bool

/-- OPEN parameter BUSY_ACTIVE_LEVEL of the one `State.reset` (R8, D11, U7). Log entry 2. -/
opaque Config.busyActiveLevel : Bool

/-- The launch parameters of the one `State.reset`. One panel (DESIGN CHOICE, log entry 1: the source's single-panel
example), a bus-busy input that exists (DESIGN CHOICE, log entry 1: the free draw covers the absent input's 0), the rest
uninterpreted (log entry 2). `State.resetWith` takes every other choice. -/
def Config.launch : Params where
  panels := 1
  spiClock := Config.spiClock
  spiMode := Config.spiMode
  overlap := Config.overlap
  hasBusyInput := true
  oeActiveLevel := Config.oeActiveLevel
  latchActiveLevel := Config.latchActiveLevel
  busyActiveLevel := Config.busyActiveLevel

end Sys2Proof
end

