-- ==== Sys2Proof/Machine/Geometry.lean ====
section
/-! DEFINITION. The fixed geometry (00_scope.md R5), the sizes and row-plane offsets that reset derives from P (R7,
10_state.md R27), and the range of P (R6). -/

namespace Sys2Proof.Machine

/-- PANEL_W (R5). -/
def panelW : Nat := 32

/-- PANEL_H (R5). -/
def panelH : Nat := 16

/-- BPP (R5). -/
def bitsPerPixel : Nat := 1

/-- BYTES_PER_PANEL_ROW = ⌈(32·1)/8⌉ (R5). -/
def bytesPerPanelRow : Nat := (panelW * bitsPerPixel + 7) / 8

/-- ROWSIZE = 4·P (R7, R27). -/
def rowsizeOf (panels : Nat) : Nat := panels * bytesPerPanelRow

/-- ROW1 = 4·ROWSIZE (R27). -/
def row1Of (panels : Nat) : Nat := 4 * rowsizeOf panels

/-- ROW2 = 8·ROWSIZE (R27). -/
def row2Of (panels : Nat) : Nat := 8 * rowsizeOf panels

/-- ROW3 = 12·ROWSIZE (R27). -/
def row3Of (panels : Nat) : Nat := 12 * rowsizeOf panels

/-- FB_SIZE = ⌈(PANEL_W·BPP)/8⌉ · PANEL_H · P (R7). -/
def fbSizeOf (panels : Nat) : Nat := bytesPerPanelRow * panelH * panels

/-- The configurations that reset admits: 1 ≤ P ≤ 256 (R6, D2). -/
def panelsLegal (panels : Nat) : Bool := decide (1 ≤ panels) && decide (panels ≤ 256)

end Sys2Proof.Machine
end

