-- ==== Sys2Proof/Machine/State.lean ====
section
/-! DEFINITION. The state of one block instance as plain data (10_state.md R20), with the observation of a run (00_scope.md
R12) and what the environment supplies (R13), its value after reset (R35, R200), and the reasons a step can stop. -/

namespace Sys2Proof.Machine

/-- `phase`, the ScanEngine's control position (R25). `shift i k`: the next byte is number 4·i + k of this refresh. -/
inductive Phase where
  | idle
  | check
  | cfgFreq
  | cfgMode
  | shift (i : Nat) (k : Fin 4)
  | oeOff
  | latchHi
  | latchLo
  | rowA
  | rowB
  | advance
  | oeOn
  deriving DecidableEq, Repr

/-- The four digital outputs (R34, R83). -/
inductive Line where
  | oe
  | lat
  | a
  | b
  deriving DecidableEq, Repr

/-- A trace event (R83). Pin values are logical (R11). -/
inductive Event where
  | cfgFreq (clock : Nat)
  | cfgMode (mode : Nat)
  | byte (v : Byte)
  | pin (line : Line) (v : Bool)
  deriving DecidableEq, Repr

/-- The environment's choice for one step (R155): the command port, the ScanEngine, or a reset with its launch
parameters. -/
inductive Turn where
  | port
  | engine
  | reset (c : Params)
  deriving DecidableEq, Repr

/-- What the environment holds for the steps to come (R13): inputs of the block, not state of it. `draws` numbers the free
values (the model's own field, log entries 4 and 5). -/
structure Env where
  /-- Command words waiting on the port, oldest first (R33, R155 a). -/
  commands : List Word
  /-- The choices of who steps next, one a step (R155); when used up, the choice is free. -/
  turns : List Turn
  /-- The logical BUS_BUSY values of the next draws (R32, R143); when used up, the draw is free. -/
  busyIn : List Bool
  /-- The number of the next free choice. -/
  draws : Nat
  deriving DecidableEq, Repr

/-- The state of the block, of its observation and of its environment. -/
structure State where
  /-- The launch parameters in force since the last reset (R6, R8). -/
  params : Params
  /-- ROWSIZE (R27). -/
  rowsize : Nat
  /-- ROW1 (R27). -/
  row1 : Nat
  /-- ROW2 (R27). -/
  row2 : Nat
  /-- ROW3 (R27). -/
  row3 : Nat
  /-- FB_SIZE (R7, R27). -/
  fbSize : Nat
  /-- The bytes of `fb` written since reset, by strictly rising index (R50); the others hold `Config.resetByte` (R201). -/
  fb : List Host.Cell
  /-- Which draw of reset contents `fb` holds (the model's own field, log entry 3). -/
  fbDraw : Nat
  /-- The RowSequencer state, 2 bits (R23). -/
  seq : BitVec 2
  /-- The transport has been configured (R24). -/
  initDone : Bool
  /-- A trigger is queued (R26). -/
  pending : Bool
  /-- The ScanEngine's control position (R25). -/
  phase : Phase
  /-- The logical output-enable latch (R28). -/
  oe : Bool
  /-- The logical latch-clock latch (R29). -/
  latch : Bool
  /-- The row-select latch A (R30). -/
  a : Bool
  /-- The row-select latch B (R30). -/
  b : Bool
  /-- The events emitted since reset, in emission order (R12, R83). -/
  trace : List Event
  /-- The responses on the command port since reset, in order (R12, R78). -/
  responses : List Word
  /-- The environment's inputs (R13). -/
  env : Env
  deriving DecidableEq, Repr

/-- Why a step stops. The block itself has no fault state (R181). -/
inductive Fault where
  /-- Raised by a frame-buffer access at an index ≥ FB_SIZE, which no operation reaches (R50, R54, R100): only states
  outside the invariant of R36 can raise it. Safe (log entry 9). -/
  | noSuchIndex (index : Nat)
  deriving DecidableEq, Repr

/-- Why a step is refused. -/
inductive Refusal where
  /-- Raised by `exec` for an instruction without a meaning. Safe. No arm raises it. -/
  | notModelled (mnemonic : String)
  /-- Raised by a reset whose P lies outside 1..256: "it refuses the configuration" (R6, R200). Safe. -/
  | badConfiguration (panels : Nat)
  deriving DecidableEq, Repr

/-- An environment with no word waiting and nothing decided (log entries 4, 5, 7). -/
def Env.empty : Env := { commands := [], turns := [], busyIn := [], draws := 0 }

/-- The state right after a reset with these launch parameters (R35, R200), for a P that reset admits. The frame buffer
holds a draw of its own; the environment is no part of the block and stays as given (log entry 7). -/
def State.resetWith (c : Params) (fbDraw : Nat) (env : Env) : State where
  params := c
  rowsize := rowsizeOf c.panels
  row1 := row1Of c.panels
  row2 := row2Of c.panels
  row3 := row3Of c.panels
  fbSize := fbSizeOf c.panels
  fb := []
  fbDraw := fbDraw
  seq := 0#2
  initDone := false
  pending := false
  phase := .idle
  oe := false
  latch := false
  a := false
  b := false
  trace := []
  responses := []
  env := env

/-- The machine right after reset: R35's values, with the launch parameters of `Config.launch` (log entries 1 and 2). -/
def State.reset : State := State.resetWith Config.launch 0 Env.empty

end Sys2Proof.Machine
end

