-- ==== Sys2Proof/Machine/Ops.lean ====
section
/-! DEFINITION. The named operations over memory and registers: the frame buffer as a canonical list of bytes, the two
memory primitives of 00_scope.md R10, one write per register, `emit` and `respond`, raising an error condition
(60_exceptions.md R181), the bus-busy draw (R143) and reset as a step (R155 c, R200). -/

namespace Sys2Proof.Machine

/-! ### Memory: a list of (index, byte) by strictly rising index -/

/-- The byte written at the index since reset, if any. -/
def Memory.lookup : List Host.Cell → Nat → Option Byte
  | [], _ => none
  | (i, v) :: m, j => if i = j then some v else Memory.lookup m j

/-- The memory with the byte at the index written. -/
def Memory.write : List Host.Cell → Nat → Byte → List Host.Cell
  | [], j, v => [(j, v)]
  | (i, u) :: m, j, v =>
    if j < i then (j, v) :: (i, u) :: m
    else if j = i then (j, v) :: m
    else (i, u) :: Memory.write m j v

/-- The canonical form: indices strictly rise, so none is listed twice. An unlisted index has no written byte, so no entry
equals what an unlisted index looks up as (log entry 3). -/
abbrev Memory.wf (m : List Host.Cell) : Prop := m.Pairwise (fun c d => c.1 < d.1)

/-! ### Register writes: one operation per register of R20 -/

/-- `phase <- x` (R25). -/
def State.setPhase (s : State) (x : Phase) : State := { s with phase := x }

/-- `pending <- v` (R26). -/
def State.setPending (s : State) (v : Bool) : State := { s with pending := v }

/-- `init_done <- v` (R24). -/
def State.setInitDone (s : State) (v : Bool) : State := { s with initDone := v }

/-- `seq <- q` (R23). -/
def State.setSeq (s : State) (q : BitVec 2) : State := { s with seq := q }

/-- `oe <- v` (R28). -/
def State.setOe (s : State) (v : Bool) : State := { s with oe := v }

/-- `latch <- v` (R29). -/
def State.setLatch (s : State) (v : Bool) : State := { s with latch := v }

/-- `a <- v` (R30). -/
def State.setA (s : State) (v : Bool) : State := { s with a := v }

/-- `b <- v` (R30). -/
def State.setB (s : State) (v : Bool) : State := { s with b := v }

/-- The frame buffer's written bytes replaced (R50). -/
def State.setFb (s : State) (m : List Host.Cell) : State := { s with fb := m }

/-- The environment replaced (R13). -/
def State.setEnv (s : State) (e : Env) : State := { s with env := e }

/-- `emit E`: append the event to the output trace (R10, R83). -/
def State.emit (s : State) (e : Event) : State := { s with trace := s.trace ++ [e] }

/-! ### The memory primitives of R10 -/

/-- The byte the frame buffer holds at an index: the last one written since reset, else the reset draw's (R61, R201). -/
def State.fbByte (s : State) (j : Nat) : Byte := (Memory.lookup s.fb j).getD (Config.resetByte s.fbDraw j)

/-- `MemRead(j, 1)` (R10). There is no index at or above FB_SIZE (R50). -/
def memRead (s : State) (j : Nat) : Except Fault Byte :=
  if j < s.fbSize then .ok (s.fbByte j) else .error (.noSuchIndex j)

/-- `MemWrite(j, 1, v)` (R10). There is no index at or above FB_SIZE (R50). -/
def memWrite (s : State) (j : Nat) (v : Byte) : Except Fault State :=
  if j < s.fbSize then .ok (s.setFb (Memory.write s.fb j v)) else .error (.noSuchIndex j)

/-! ### Responses and errors -/

/-- STATUS (R79). The codes 3–15 are never produced. -/
inductive Status where
  | ok
  | outOfRange
  | illegalCommand
  deriving DecidableEq, Repr

/-- The code of a status (R79). -/
def statusCode : Status → BitVec 4
  | .ok => 0#4
  | .outOfRange => 1#4
  | .illegalCommand => 2#4

/-- The response word: bits 31:9 zero, bit 8 PIXEL, bits 7:4 zero, bits 3:0 STATUS (R78). -/
def responseWord (st : Status) (pixel : Bool) : Word :=
  0#23 ++ BitVec.ofBool pixel ++ 0#4 ++ statusCode st

/-- `respond(status, pixel)`: put a response word on the command port (R10, R78). -/
def State.respond (s : State) (st : Status) (pixel : Bool) : State :=
  { s with responses := s.responses ++ [responseWord st pixel] }

/-- The two error conditions (R180). -/
inductive ErrorCondition where
  | outOfRange
  | illegalCommand
  deriving DecidableEq, Repr

/-- The status an error condition responds with (R180). -/
def errorStatus : ErrorCondition → Status
  | .outOfRange => .outOfRange
  | .illegalCommand => .illegalCommand

/-- Raising an error condition: the command ends, the response goes to the port with PIXEL = 0, and nothing else changes.
No state is saved and nothing is redirected: there is no trap entry and no return (R181, R184, R185). -/
def raiseError (e : ErrorCondition) (s : State) : Host.Outcome State Fault Refusal :=
  .next (s.respond (errorStatus e) false)

/-! ### The bus-busy draw -/

/-- `draw busy` (R10, R32): 0 when the input does not exist; else the environment's next value; else a free value. -/
def busyValue (s : State) : Bool :=
  if s.params.hasBusyInput then s.env.busyIn.headD (Config.freeBusy s.env.draws) else false

/-- What the draw uses up: the environment's next value, or the free value's number. -/
def busyTaken (s : State) : State :=
  if s.params.hasBusyInput then
    match s.env.busyIn with
    | [] => s.setEnv { s.env with draws := s.env.draws + 1 }
    | _ :: rest => s.setEnv { s.env with busyIn := rest }
  else s

/-! ### Reset as a step -/

/-- Reset with launch parameters (R155 c, R200): refused for P outside 1..256, else every piece of state takes its reset
value, `fb` a new draw. What the environment has decided for later steps is no state of the block and stays
(log entry 7). -/
def applyReset (c : Params) (s : State) : Host.Outcome State Fault Refusal :=
  if panelsLegal c.panels then .next (State.resetWith c (s.fbDraw + 1) s.env) else .refused (.badConfiguration c.panels)

end Sys2Proof.Machine
end

