-- ==== Sys2Proof/Machine/Operands.lean ====
section
/-! DEFINITION. How operands name frame-buffer bits and bytes: the range check (40_framebuffer.md R100), the pixel map
(20_memory.md R51, R52), and the index a SHIFT micro-step reads (42_scan_engine.md R146). -/

namespace Sys2Proof.Machine

/-- `InRange(p, x, y)`: x < 32, y < 16 and p < P (R100). -/
def inRange (s : State) (p x y : Nat) : Bool :=
  decide (x < panelW) && decide (y < panelH) && decide (p < s.params.panels)

/-- `MASK[n] = 0x80 >> n` (R51). -/
def mask (n : Nat) : Byte := 0x80#8 >>> n

/-- `MASKOF(x) = MASK[x mod 8]` (R52). -/
def maskOf (x : Nat) : Byte := mask (x % 8)

/-- `IDX(p, x, y) = y·ROWSIZE + 4·p + x div 8` (R52). -/
def pixelIndex (s : State) (p x y : Nat) : Nat := y * s.rowsize + 4 * p + x / 8

/-- The byte with the pixel's bit set or cleared, every other bit kept (R101, R104). -/
def withPixel (old : Byte) (x : Nat) (on : Bool) : Byte :=
  if on then old ||| maskOf x else old &&& ~~~(maskOf x)

/-- The pixel's bit of the byte (R102). -/
def pixelOf (v : Byte) (x : Nat) : Bool := decide (v &&& maskOf x ≠ 0#8)

/-- `OFF[k]`: ROW3, ROW2, ROW1, 0 for k = 0, 1, 2, 3 (42_scan_engine.md, shared definitions). -/
def rowOffset (s : State) (k : Fin 4) : Nat :=
  match k with
  | 0 => s.row3
  | 1 => s.row2
  | 2 => s.row1
  | 3 => 0

/-- The index SHIFT(i, k) reads: `base + i + OFF[k]` with `base = ROWSIZE·seq` (R146). -/
def shiftIndex (s : State) (i : Nat) (k : Fin 4) : Nat := s.rowsize * s.seq.toNat + i + rowOffset s k

end Sys2Proof.Machine
end

