-- ==== Sys2Proof/Machine/FrameBuffer.lean ====
section
/-! DEFINITION. The FrameBuffer commands (40_framebuffer.md): SETPIXEL and GETPIXEL, each one atomic step. -/

namespace Sys2Proof.Machine

/-- SETPIXEL p, x, y, on (R101). -/
def execSetPixel (p x y : Nat) (on : Bool) (s : State) : Host.Outcome State Fault Refusal :=
  if inRange s p x y then
    match memRead s (pixelIndex s p x y) with
    | .error f => .fault f
    | .ok old =>
      match memWrite s (pixelIndex s p x y) (withPixel old x on) with
      | .error f => .fault f
      | .ok t => .next (t.respond .ok false)
  else raiseError .outOfRange s

/-- GETPIXEL p, x, y (R102). -/
def execGetPixel (p x y : Nat) (s : State) : Host.Outcome State Fault Refusal :=
  if inRange s p x y then
    match memRead s (pixelIndex s p x y) with
    | .error f => .fault f
    | .ok v => .next (s.respond .ok (pixelOf v x))
  else raiseError .outOfRange s

end Sys2Proof.Machine
end

