-- ==== Sys2Proof/Machine/Flags.lean ====
section
/-! DEFINITION. The block's two flags: `init_done` (10_state.md R24) and `pending` (R26), with the two operations that
read or write them on behalf of several rules. -/

namespace Sys2Proof.Machine

/-- `Finish()` (42_scan_engine.md, shared definitions): a queued trigger starts at CHECK, else the engine is IDLE. -/
def finish (s : State) : State :=
  if s.pending then (s.setPending false).setPhase .check else s.setPhase .idle

/-- What a trigger does while a refresh runs: nothing under DROP, `pending <- 1` under QUEUE1 (R141, R142). -/
def overlapTrigger (s : State) : State :=
  match s.params.overlap with
  | .drop => s
  | .queue1 => s.setPending true

/-- Where a refresh that passed its bus-busy check goes: the lazy init, once, else the first byte (R143). -/
def afterCheck (s : State) : State :=
  if s.initDone then s.setPhase (.shift 0 0) else s.setPhase .cfgFreq

end Sys2Proof.Machine
end

