-- ==== Sys2Proof/Machine/RowSequencer.lean ====
section
/-! DEFINITION. The RowSequencer (41_row_sequencer.md): its row-select encoding and its one operation. -/

namespace Sys2Proof.Machine

/-- `SEL(s) = (A, B) = (s[0], s[1])` (R82, R121). -/
def rowSelect (q : BitVec 2) : Bool × Bool := (q.getLsbD 0, q.getLsbD 1)

/-- The state after `q` in the cycle 0→1→2→3→0 (R122). -/
def nextGroup (q : BitVec 2) : BitVec 2 := q + 1#2

/-- ADVANCE: `seq <- (seq + 1) mod 4`; returns the new state's pair, which drives no line (R122, R123). -/
def advanceSeq (s : State) : State × (Bool × Bool) :=
  (s.setSeq (nextGroup s.seq), rowSelect (nextGroup s.seq))

end Sys2Proof.Machine
end

