-- ==== Sys2Proof/Machine/ScanEngine.lean ====
section
/-! DEFINITION. The ScanEngine (42_scan_engine.md): the REFRESH trigger and the micro-steps of one refresh. -/

namespace Sys2Proof.Machine

/-- REFRESH (R140): start a refresh when the engine is IDLE, else the overlap policy. No response word. -/
def execRefresh (s : State) : Host.Outcome State Fault Refusal :=
  if s.phase = .idle then .next (s.setPhase .check) else .next (overlapTrigger s)

/-- CHECK (R143): skip when the bus is busy, before anything else, the lazy init included (D10). -/
def microCheck (s : State) : State :=
  if busyValue s then finish (busyTaken s) else afterCheck (busyTaken s)

/-- CFG_FREQ (R144). -/
def microCfgFreq (s : State) : State := (s.emit (.cfgFreq s.params.spiClock)).setPhase .cfgMode

/-- CFG_MODE (R145). -/
def microCfgMode (s : State) : State :=
  ((s.emit (.cfgMode s.params.spiMode)).setInitDone true).setPhase (.shift 0 0)

/-- `NextShift(i, k)` (R147). The last case also serves an i at or above ROWSIZE, which no reachable state holds (R36). -/
def nextShift (rowsize i : Nat) (k : Fin 4) : Phase :=
  if k.val < 3 then .shift i (k + 1)
  else if i + 1 < rowsize then .shift (i + 1) 0
  else .oeOff

/-- SHIFT(i, k): transfer one byte, read at this micro-step (R146). -/
def microShift (i : Nat) (k : Fin 4) (s : State) : Host.Outcome State Fault Refusal :=
  match memRead s (shiftIndex s i k) with
  | .error f => .fault f
  | .ok v => .next ((s.emit (.byte v)).setPhase (nextShift s.rowsize i k))

/-- OE_OFF (R148). -/
def microOeOff (s : State) : State := ((s.setOe false).emit (.pin .oe false)).setPhase .latchHi

/-- LATCH_HI (R149). -/
def microLatchHi (s : State) : State := ((s.setLatch true).emit (.pin .lat true)).setPhase .latchLo

/-- LATCH_LO (R150). -/
def microLatchLo (s : State) : State := ((s.setLatch false).emit (.pin .lat false)).setPhase .rowA

/-- ROW_A (R151): from the current `seq`, which ADVANCE has not yet changed. -/
def microRowA (s : State) : State :=
  ((s.setA (rowSelect s.seq).1).emit (.pin .a (rowSelect s.seq).1)).setPhase .rowB

/-- ROW_B (R152): from the current `seq`. -/
def microRowB (s : State) : State :=
  ((s.setB (rowSelect s.seq).2).emit (.pin .b (rowSelect s.seq).2)).setPhase .advance

/-- ADVANCE (R153): the returned pair is discarded. -/
def microAdvance (s : State) : State := (advanceSeq s).1.setPhase .oeOn

/-- OE_ON (R154): re-enable output and finish. -/
def microOeOn (s : State) : State := finish ((s.setOe true).emit (.pin .oe true))

/-- One ScanEngine step: the micro-step that `phase` names (R155 b). At IDLE no micro-step is enabled and nothing
happens; the scheduler never asks for it there. -/
def microStep (s : State) : Host.Outcome State Fault Refusal :=
  match s.phase with
  | .idle => .next s
  | .check => .next (microCheck s)
  | .cfgFreq => .next (microCfgFreq s)
  | .cfgMode => .next (microCfgMode s)
  | .shift i k => microShift i k s
  | .oeOff => .next (microOeOff s)
  | .latchHi => .next (microLatchHi s)
  | .latchLo => .next (microLatchLo s)
  | .rowA => .next (microRowA s)
  | .rowB => .next (microRowB s)
  | .advance => .next (microAdvance s)
  | .oeOn => .next (microOeOn s)

end Sys2Proof.Machine
end

