-- ==== Sys2Proof/Machine/Dispatch.lean ====
section
/-! DEFINITION. The meaning of every command: one arm per row of spec/opcode_table.json. -/

namespace Sys2Proof.Machine

def exec (i : Instr) (s : State) : Host.Outcome State Fault Refusal :=
  match i with
  | .refresh => Sys2Proof.Machine.execRefresh s
  | .setPixel p x y on => Sys2Proof.Machine.execSetPixel p x y on s
  | .getPixel p x y => Sys2Proof.Machine.execGetPixel p x y s

end Sys2Proof.Machine
end

