-- ==== Sys2Proof/Machine/Port.lean ====
section
/-! DEFINITION. The command port (30_encoding.md R77): decode a word fully, then execute the command it carries or raise
IllegalCommand. -/

namespace Sys2Proof.Machine

/-- One word on the command port, already taken from the queue. Legality comes first; range checks belong to the
command's own rule (R77, R183). -/
def runWord (w : Word) (s : State) : Host.Outcome State Fault Refusal :=
  match decode w with
  | .error _ => raiseError .illegalCommand s
  | .ok i => exec i s

end Sys2Proof.Machine
end

