-- ==== Sys2Proof/Machine/Schedule.lean ====
section
/-! DEFINITION. Which machine step comes next (42_scan_engine.md R155): a command-port step, a ScanEngine step, a reset, or,
when none of them is there to run, waiting. -/

namespace Sys2Proof.Machine

/-- The machine step to come. -/
inductive Move where
  /-- Nothing is enabled: IDLE, no word waiting, no reset (log entry 6). -/
  | wait
  /-- (a) A command-port step on this word. -/
  | port (w : Word)
  /-- (b) A ScanEngine step. -/
  | engine
  /-- (c) A reset. -/
  | reset (c : Params)
  deriving DecidableEq, Repr

/-- The choice between the two agents when both are enabled: the environment's turn, or a free value (R155). -/
def portChosen (e : Env) : Bool :=
  match e.turns with
  | [] => Config.portFirst e.draws
  | .port :: _ => true
  | .engine :: _ => false
  | .reset _ :: _ => false

/-- The agent that steps when the turn is no reset: the one that is enabled, or the chosen one if both are (R155 a, b). -/
def agentMove (s : State) : Move :=
  match s.env.commands, s.phase with
  | [], .idle => .wait
  | w :: _, .idle => .port w
  | [], _ => .engine
  | w :: _, _ => if portChosen s.env then .port w else .engine

/-- The next machine step. A reset takes precedence over everything (R183). -/
def nextMove (s : State) : Move :=
  match s.env.turns with
  | .reset c :: _ => .reset c
  | _ => agentMove s

/-- The turn of this step is used up: the environment's, or the free choice's number. -/
def useTurn (s : State) : State :=
  match s.env.turns with
  | [] => s.setEnv { s.env with draws := s.env.draws + 1 }
  | _ :: rest => s.setEnv { s.env with turns := rest }

/-- The oldest waiting word is taken from the port (R77). -/
def takeWord (s : State) : State := s.setEnv { s.env with commands := s.env.commands.tail }

/-- The environment hands the port a word to be taken next, and the port the next turn. -/
def offerWord (s : State) (w : Word) : State :=
  s.setEnv { s.env with commands := w :: s.env.commands, turns := .port :: s.env.turns }

end Sys2Proof.Machine
end

