-- ==== Sys2Proof/Machine/Step.lean ====
section
/-! DEFINITION. The machine step (42_scan_engine.md R155), and how the host places a command word. -/

namespace Sys2Proof.Machine

/-- One machine step: the turn is used up, then the chosen agent steps, or a reset happens, or the machine waits. -/
def step (s : State) : Host.Outcome State Fault Refusal :=
  match nextMove s with
  | .wait => .next (useTurn s)
  | .port w => runWord w (takeWord (useTurn s))
  | .engine => microStep (useTurn s)
  | .reset c => applyReset c (useTurn s)

/-- `s` with this command word the next one the port takes, and the port the next agent to step. The block fetches no
instructions: words arrive from outside (R33, R65; log entry 8). -/
def State.withFetchWord (s : State) (nbits w : Nat) : State :=
  offerWord s (BitVec.ofNat 32 (w % 2 ^ nbits))

end Sys2Proof.Machine
end

