-- ==== Sys2Proof/Machine/Text.lean ====
section
/-! DEFINITION. The two text forms of the spec: the assembler's lines (30_encoding.md R80, R81) and the spellings of trace
events (R83). What R80 leaves open about blanks and spelling (log entry 12) and about a text with a bad line (log entry 18)
is this model's choice. -/

namespace Sys2Proof.Machine

/-- A character that separates words of a line (log entry 12). -/
def isBlank (c : Char) : Bool := c == ' ' || c == '\t' || c == '\r'

/-- The text without the blanks around it. -/
def trimBlanks (cs : List Char) : List Char :=
  ((cs.dropWhile isBlank).reverse.dropWhile isBlank).reverse

/-- The text before the comment: `;` starts a comment (R80). -/
def stripComment (cs : List Char) : List Char := cs.takeWhile (fun c => c != ';')

/-- The value of a hexadecimal digit, of either case (log entry 12). -/
def digitValue (c : Char) : Option Nat :=
  if '0' ≤ c ∧ c ≤ '9' then some (c.toNat - '0'.toNat)
  else if 'a' ≤ c ∧ c ≤ 'f' then some (c.toNat - 'a'.toNat + 10)
  else if 'A' ≤ c ∧ c ≤ 'F' then some (c.toNat - 'A'.toNat + 10)
  else none

/-- The digits read in a base after the value so far; no value if a character is no digit of the base. -/
def parseDigits (base : Nat) : List Char → Nat → Option Nat
  | [], v => some v
  | c :: cs, v =>
    match digitValue c with
    | none => none
    | some d => if d < base then parseDigits base cs (v * base + d) else none

/-- An operand: a decimal or `0x` hexadecimal natural (R80). -/
def parseNatural : List Char → Option Nat
  | [] => none
  | '0' :: 'x' :: c :: cs => parseDigits 16 (c :: cs) 0
  | c :: cs => parseDigits 10 (c :: cs) 0

/-- The text cut at each separator. -/
def cutAt (sep : Char) : List Char → List (List Char)
  | [] => [[]]
  | c :: cs =>
    match cutAt sep cs with
    | [] => [[c]]
    | part :: parts => if c = sep then [] :: part :: parts else (c :: part) :: parts

/-- Every operand of a list, or none if one of them is no natural. -/
def parseNaturals : List (List Char) → Option (List Nat)
  | [] => some []
  | part :: parts =>
    match parseNatural (trimBlanks part), parseNaturals parts with
    | some v, some vs => some (v :: vs)
    | _, _ => none

/-- The operands after the mnemonic, separated by commas (R80). -/
def parseOperands (cs : List Char) : Option (List Nat) :=
  match trimBlanks cs with
  | [] => some []
  | rest => parseNaturals (cutAt ',' rest)

/-- What a line says before its operands are checked against their fields. -/
inductive ParsedLine where
  /-- No command on the line. -/
  | blank
  | command (i : Instr)
  | error
  deriving DecidableEq, Repr

/-- A mnemonic, in capitals, with its operands (R80); `on` must be 0 or 1. -/
def parseCommand (mnemonic : List Char) (operands : List Nat) : ParsedLine :=
  if mnemonic = ['R', 'E', 'F', 'R', 'E', 'S', 'H'] then
    match operands with
    | [] => .command .refresh
    | _ => .error
  else if mnemonic = ['S', 'E', 'T', 'P', 'I', 'X', 'E', 'L'] then
    match operands with
    | [p, x, y, 0] => .command (.setPixel p x y false)
    | [p, x, y, 1] => .command (.setPixel p x y true)
    | _ => .error
  else if mnemonic = ['G', 'E', 'T', 'P', 'I', 'X', 'E', 'L'] then
    match operands with
    | [p, x, y] => .command (.getPixel p x y)
    | _ => .error
  else .error

/-- One line of the assembler's text, its mnemonic in either case (R80). -/
def parseLine (line : List Char) : ParsedLine :=
  match trimBlanks (stripComment line) with
  | [] => .blank
  | c :: cs =>
    match parseOperands ((c :: cs).dropWhile (fun d => !isBlank d)) with
    | none => .error
    | some operands => parseCommand (((c :: cs).takeWhile (fun d => !isBlank d)).map Char.toUpper) operands

/-- What the assembler makes of a line (R80). -/
inductive AssembledLine where
  | blank
  | word (w : Word)
  | error
  deriving DecidableEq, Repr

/-- The assembler: an operand above 255 is an assembly error and produces no word, else the line is encoded (R80). -/
def assembleLine (line : List Char) : AssembledLine :=
  match parseLine line with
  | .blank => .blank
  | .error => .error
  | .command i => if i.wellFormed then .word (encode i) else .error

/-- The words of a sequence of lines, in order. R80 makes a bad line an assembly error that produces no word and says
nothing of the text's other lines: that one bad line leaves the whole text without words is this model's choice
(log entry 18). -/
def assembleLines : List (List Char) → Option (List Word)
  | [] => some []
  | line :: lines =>
    match assembleLine line, assembleLines lines with
    | .blank, some ws => some ws
    | .word w, some ws => some (w :: ws)
    | _, _ => none

/-- The words of a program text, one command a line (R80); none if a line is bad (log entry 18). -/
def assemble (text : List Char) : Option (List Word) := assembleLines (cutAt '\n' text)

/-- A hexadecimal digit, in capitals as 95_test_vectors.md writes them. -/
def hexDigit (n : BitVec 4) : Char :=
  if n.toNat < 10 then Char.ofNat ('0'.toNat + n.toNat) else Char.ofNat ('A'.toNat + (n.toNat - 10))

/-- A logical value as a digit. -/
def bitChar (v : Bool) : Char := if v then '1' else '0'

/-- The name of a line in a `Pin` event (R83). -/
def lineName : Line → List Char
  | .oe => ['O', 'E']
  | .lat => ['L', 'A', 'T']
  | .a => ['A']
  | .b => ['B']

/-- The text spelling of a trace event (R83). -/
def spellEvent : Event → List Char
  | .cfgFreq _ => ['C', 'F', 'G', 'F', 'R', 'E', 'Q']
  | .cfgMode _ => ['C', 'F', 'G', 'M', 'O', 'D', 'E']
  | .byte v => ['B', 'Y', 'T', 'E', ' ', '0', 'x', hexDigit (v.extractLsb' 4 4), hexDigit (v.extractLsb' 0 4)]
  | .pin l v => lineName l ++ ['=', bitChar v]

end Sys2Proof.Machine
end

