-- ==== Sys2Proof/Machine/Pins.lean ====
section
/-! DEFINITION. The wire levels of the block's pins (10_state.md R28, R29, R30): the logical value, or its complement where
the active level is 0 (00_scope.md R8, R11). No rule of the block reads a level. -/

namespace Sys2Proof.Machine

/-- The level of a logical value on a line with this active level (R28, R29): the value at active level 1, else its
complement. -/
def levelOf (activeLevel logical : Bool) : Bool := if activeLevel then logical else !logical

/-- The level of the output-enable pin (R28). -/
def oePin (s : State) : Bool := levelOf s.params.oeActiveLevel s.oe

/-- The level of the latch pin (R29). -/
def latchPin (s : State) : Bool := levelOf s.params.latchActiveLevel s.latch

/-- The level of the row-select pin A: the logical value (R30). -/
def rowAPin (s : State) : Bool := s.a

/-- The level of the row-select pin B: the logical value (R30). -/
def rowBPin (s : State) : Bool := s.b

/-- The logical BUS_BUSY value of a wire level: claimed at BUSY_ACTIVE_LEVEL (R8, R11, R32). -/
def busyOfLevel (c : Params) (level : Bool) : Bool := level == c.busyActiveLevel

end Sys2Proof.Machine
end

