-- ==== Sys2Proof/Safety.lean ====
section
/-! DEFINITION. The terms that claims use: the geometry and the invariant of a reachable state (10_state.md R36), quiescence
(00_scope.md R12), what a refresh emits and how many micro-steps it has left (42_scan_engine.md R156), the grammar of a
trace, the collaborators' state as a view of the trace, and which assembler lines spell which command (30_encoding.md R80).
None of these is read by the machine. -/

namespace Sys2Proof.Safety

open Sys2Proof.Machine

/-! ### Invariants -/

/-- P is admitted and the constants are the ones reset derives from it (R6, R7, R27). -/
structure Geometry (s : State) : Prop where
  panels_pos : 1 ≤ s.params.panels
  panels_le : s.params.panels ≤ 256
  rowsize_eq : s.rowsize = 4 * s.params.panels
  row1_eq : s.row1 = 16 * s.params.panels
  row2_eq : s.row2 = 32 * s.params.panels
  row3_eq : s.row3 = 48 * s.params.panels
  fbSize_eq : s.fbSize = 64 * s.params.panels

/-- The phases SHIFT, OE_OFF, …, OE_ON, which follow the lazy init (R36). -/
def afterInit : Phase → Bool
  | .idle => false
  | .check => false
  | .cfgFreq => false
  | .cfgMode => false
  | .shift _ _ => true
  | .oeOff => true
  | .latchHi => true
  | .latchLo => true
  | .rowA => true
  | .rowB => true
  | .advance => true
  | .oeOn => true

/-- The two phases of the lazy init (R25). -/
def inLazyInit : Phase → Bool
  | .cfgFreq => true
  | .cfgMode => true
  | .idle => false
  | .check => false
  | .shift _ _ => false
  | .oeOff => false
  | .latchHi => false
  | .latchLo => false
  | .rowA => false
  | .rowB => false
  | .advance => false
  | .oeOn => false

/-- The phases LATCH_HI, …, OE_ON, in which output is disabled (R36). -/
def outputDark : Phase → Bool
  | .latchHi => true
  | .latchLo => true
  | .rowA => true
  | .rowB => true
  | .advance => true
  | .oeOn => true
  | .idle => false
  | .check => false
  | .cfgFreq => false
  | .cfgMode => false
  | .shift _ _ => false
  | .oeOff => false

/-- What every reachable state satisfies (R36), with the canonical form of the frame buffer and two further facts of the
micro-steps (`lazy_init`, `pending_busy`) without which the list is not kept step by step. -/
structure Inv (s : State) : Prop where
  geometry : Geometry s
  fb_canonical : Memory.wf s.fb
  fb_bounded : ∀ c ∈ s.fb, c.1 < s.fbSize
  init_done : afterInit s.phase = true → s.initDone = true
  lazy_init : inLazyInit s.phase = true → s.initDone = false
  latch_window : s.latch = true ↔ s.phase = .latchLo
  pending_queue : s.pending = true → s.params.overlap = .queue1
  pending_busy : s.pending = true → s.phase ≠ .idle
  output_dark : outputDark s.phase = true → s.oe = false
  shift_row : ∀ i k, s.phase = .shift i k → i < s.rowsize

/-- Nothing runs and nothing is queued (R12). -/
def Quiescent (s : State) : Prop := s.phase = .idle ∧ s.pending = false

/-! ### Refreshes completed, in the trace -/

/-- The event that ends every refresh that was not skipped (R154). -/
def isRefreshEnd (e : Event) : Bool := e == .pin .oe true

/-- How many refreshes have completed since reset: each ends with one `OE=1` (R154, R156). -/
def completed (s : State) : Nat := s.trace.countP isRefreshEnd

/-- `seq` is the number of completed refreshes modulo 4, the running one counted once it has advanced (R124). -/
def SeqTracks (s : State) : Prop :=
  s.seq.toNat = (completed s + if s.phase = .oeOn then 1 else 0) % 4

/-- What the row-select latches hold (R30, R37): the group of the last completed refresh, and during ROW_B, ADVANCE and
OE_ON of a refresh what has been written of the group that it drives. -/
structure RowLines (s : State) : Prop where
  at_rowB : s.phase = .rowB → s.a = (rowSelect s.seq).1
  at_advance : s.phase = .advance → (s.a, s.b) = rowSelect s.seq
  at_oeOn : s.phase = .oeOn → (s.a, s.b) = rowSelect (s.seq - 1#2)
  elsewhere : s.phase ≠ .rowB → s.phase ≠ .advance → s.phase ≠ .oeOn → 0 < completed s →
    (s.a, s.b) = rowSelect (s.seq - 1#2)

/-! ### One refresh -/

/-- The four bytes that a refresh transfers for one i, in order (R146): rows s+12, s+8, s+4, s. -/
def columnEvents (s : State) (i : Nat) : List Event :=
  [.byte (s.fbByte (s.rowsize * s.seq.toNat + i + s.row3)), .byte (s.fbByte (s.rowsize * s.seq.toNat + i + s.row2)),
   .byte (s.fbByte (s.rowsize * s.seq.toNat + i + s.row1)), .byte (s.fbByte (s.rowsize * s.seq.toNat + i))]

/-- The lazy init's two events, if the transport is not yet configured (R156). -/
def initEvents (s : State) : List Event :=
  if s.initDone then [] else [.cfgFreq s.params.spiClock, .cfgMode s.params.spiMode]

/-- The six `Pin` events that end a refresh (R156). -/
def pinEvents (q : BitVec 2) : List Event :=
  [.pin .oe false, .pin .lat true, .pin .lat false, .pin .a (q.getLsbD 0), .pin .b (q.getLsbD 1), .pin .oe true]

/-- What a refresh emits that starts in this state and that no SETPIXEL interleaves with (R156). -/
def refreshEvents (s : State) : List Event :=
  initEvents s ++ (List.range s.rowsize).flatMap (columnEvents s) ++ pinEvents s.seq

/-- The ScanEngine micro-steps of a refresh that is not skipped, CHECK among them (R156). -/
def refreshSteps (s : State) : Nat := 1 + (if s.initDone then 0 else 2) + 16 * s.params.panels + 7

/-- The micro-steps left of a running refresh that has passed CHECK (R156). -/
def remainingSteps (s : State) : Nat :=
  match s.phase with
  | .idle => 0
  | .check => refreshSteps s
  | .cfgFreq => 16 * s.params.panels + 9
  | .cfgMode => 16 * s.params.panels + 8
  | .shift i k => 16 * s.params.panels - (4 * i + k.val) + 7
  | .oeOff => 7
  | .latchHi => 6
  | .latchLo => 5
  | .rowA => 4
  | .rowB => 3
  | .advance => 2
  | .oeOn => 1

/-! ### The grammar of a trace -/

/-- How far a trace has come in the pattern of R156. `bytes 0` is the place between two refreshes once the transport is
configured. -/
inductive TracePos where
  | unconfigured
  | clockSet
  | bytes (n : Nat)
  | dark
  | pulse
  | pulsed
  | lineA
  | lineB
  deriving DecidableEq, Repr

/-- A place in the pattern, and the row group that the refresh there drives. -/
structure TraceRead where
  group : BitVec 2
  pos : TracePos
  deriving DecidableEq, Repr

/-- The pattern of R156, event by event: CFGFREQ and CFGMODE once and before any byte (R163), all 16·P bytes (R160), then
the six pins in order (R158) with A and B from the group, whose number rises by one per refresh (R124). -/
def readEvent (c : Params) (r : TraceRead) (e : Event) : Option TraceRead :=
  match r.pos, e with
  | .unconfigured, .cfgFreq v => if v = c.spiClock then some { r with pos := .clockSet } else none
  | .clockSet, .cfgMode v => if v = c.spiMode then some { r with pos := .bytes 0 } else none
  | .bytes n, .byte _ => if n < 16 * c.panels then some { r with pos := .bytes (n + 1) } else none
  | .bytes n, .pin .oe false => if n = 16 * c.panels then some { r with pos := .dark } else none
  | .dark, .pin .lat true => some { r with pos := .pulse }
  | .pulse, .pin .lat false => some { r with pos := .pulsed }
  | .pulsed, .pin .a v => if v = r.group.getLsbD 0 then some { r with pos := .lineA } else none
  | .lineA, .pin .b v => if v = r.group.getLsbD 1 then some { r with pos := .lineB } else none
  | .lineB, .pin .oe true => some { group := r.group + 1#2, pos := .bytes 0 }
  | _, _ => none

/-- The whole trace read from reset on; none if it leaves the pattern. -/
def readTrace (c : Params) (t : List Event) : Option TraceRead :=
  t.foldl (fun r e => r.bind (fun r => readEvent c r e)) (some { group := 0#2, pos := .unconfigured })

/-- Where the trace stands in the pattern, from `phase` and `init_done`. -/
def posOfPhase (s : State) : TracePos :=
  match s.phase with
  | .idle => if s.initDone then .bytes 0 else .unconfigured
  | .check => if s.initDone then .bytes 0 else .unconfigured
  | .cfgFreq => .unconfigured
  | .cfgMode => .clockSet
  | .shift i k => .bytes (4 * i + k.val)
  | .oeOff => .bytes (16 * s.params.panels)
  | .latchHi => .dark
  | .latchLo => .pulse
  | .rowA => .pulsed
  | .rowB => .lineA
  | .advance => .lineB
  | .oeOn => .lineB

/-- The group that the running refresh drives, or the next one will: `seq`, but once ADVANCE has run. -/
def drivenGroup (s : State) : BitVec 2 := if s.phase = .oeOn then s.seq - 1#2 else s.seq

/-- The trace since reset is a prefix of refreshes one after the other, and `phase` says where it stands. -/
def TraceInPattern (s : State) : Prop :=
  readTrace s.params s.trace = some { group := drivenGroup s, pos := posOfPhase s }

/-! ### The collaborators, as a view of the trace -/

/-- What the transport and the panel hold, as far as the events tell (R31, R34, R188; log entry 13): the configuration
written, the bytes in the shift chain, the bytes latched, and the four lines. -/
structure Outside where
  clock : Option Nat
  mode : Option Nat
  chain : List Byte
  latched : List Byte
  oe : Bool
  lat : Bool
  a : Bool
  b : Bool
  deriving DecidableEq, Repr

/-- Before any event: nothing configured, nothing latched by this block (R37), the lines at their reset values (R35). -/
def Outside.start : Outside :=
  { clock := none, mode := none, chain := [], latched := [], oe := false, lat := false, a := false, b := false }

/-- The last 16·P bytes of the chain, which the shift registers hold. -/
def lastBytes (n : Nat) (l : List Byte) : List Byte := l.drop (l.length - n)

/-- One event. The latch pulse moves the bytes just shifted to the outputs (R149); they are taken here at the pulse's end,
and as no byte falls inside a pulse either edge gives the same (N9). -/
def Outside.see (c : Params) (o : Outside) : Event → Outside
  | .cfgFreq v => { o with clock := some v }
  | .cfgMode v => { o with mode := some v }
  | .byte v => { o with chain := o.chain ++ [v] }
  | .pin .oe v => { o with oe := v }
  | .pin .lat v => { o with lat := v, latched := if o.lat && !v then lastBytes (16 * c.panels) o.chain else o.latched }
  | .pin .a v => { o with a := v }
  | .pin .b v => { o with b := v }

/-- The collaborators after a trace. -/
def outsideOf (c : Params) (t : List Event) : Outside := t.foldl (Outside.see c) Outside.start

/-- The row group that the row-select latches name: a + 2·b (R37, R121). -/
def selectedGroup (s : State) : Nat := s.a.toNat + 2 * s.b.toNat

/-! ### Illegal words -/

/-- The four cases of R76, on the word as a number: OP is `w / 2^28`. -/
def IllegalCase (w : Word) : Prop :=
  (w.toNat / 2 ^ 28 = 0 ∨ 4 ≤ w.toNat / 2 ^ 28) ∨
  (w.toNat / 2 ^ 28 = 1 ∧ w.toNat % 2 ^ 28 ≠ 0) ∨
  (w.toNat / 2 ^ 28 = 2 ∧ w.toNat / 2 ^ 25 % 2 ^ 3 ≠ 0) ∨
  (w.toNat / 2 ^ 28 = 3 ∧ w.toNat / 2 ^ 24 % 2 ^ 4 ≠ 0)

/-! ### The assembler's lines (R80), told by the characters that make them up -/

/-- Blanks only. What a blank is, is log entry 12's choice. -/
def Blanks (cs : List Char) : Prop := ∀ c ∈ cs, isBlank c = true

/-- The number that digits write in a base, the first the most significant. -/
def digitsValue (base : Nat) (ds : List Nat) : Nat := ds.foldl (fun v d => base * v + d) 0

/-- A decimal numeral of `n`. -/
def IsDecimal (cs : List Char) (n : Nat) : Prop :=
  ∃ ds : List Nat, ds ≠ [] ∧ (∀ d ∈ ds, d < 10) ∧ cs = ds.map Nat.digitChar ∧ n = digitsValue 10 ds

/-- A `0x` hexadecimal numeral of `n`, its digits in either case (log entry 12). -/
def IsHexadecimal (cs : List Char) (n : Nat) : Prop :=
  ∃ (hs : List Char) (ds : List Nat), cs = '0' :: 'x' :: hs ∧ ds ≠ [] ∧ (∀ d ∈ ds, d < 16) ∧
    hs.map Char.toLower = ds.map Nat.digitChar ∧ n = digitsValue 16 ds

/-- An operand that says `n`: a decimal or `0x` hexadecimal natural (R80), with blanks around it. -/
def OperandSays (cs : List Char) (n : Nat) : Prop :=
  ∃ b core e : List Char, Blanks b ∧ Blanks e ∧ cs = b ++ core ++ e ∧ (IsDecimal core n ∨ IsHexadecimal core n)

/-- Operands that say these numbers, separated by commas; for no operand, blanks. -/
def OperandsSay : List Char → List Nat → Prop
  | cs, [] => Blanks cs
  | cs, [n] => OperandSays cs n
  | cs, n :: m :: ns => ∃ part rest, cs = part ++ ',' :: rest ∧ OperandSays part n ∧ OperandsSay rest (m :: ns)

/-- The line without its comment: `;` starts a comment (R80). -/
def BodyOf (line body : List Char) : Prop :=
  ';' ∉ body ∧ (line = body ∨ ∃ comment, line = body ++ ';' :: comment)

/-- The line is this mnemonic, in either case, with these operands, apart from it by a blank. -/
def LineSays (line mnemonic : List Char) (ns : List Nat) : Prop :=
  ∃ b m rest : List Char, BodyOf line (b ++ m ++ rest) ∧ Blanks b ∧ m.map Char.toUpper = mnemonic ∧
    (∀ c, rest.head? = some c → isBlank c = true) ∧ OperandsSay rest ns

/-- The line spells the command: one of R80's three forms. -/
def LineSpells (line : List Char) : Instr → Prop
  | .refresh => LineSays line ['R', 'E', 'F', 'R', 'E', 'S', 'H'] []
  | .setPixel p x y on => LineSays line ['S', 'E', 'T', 'P', 'I', 'X', 'E', 'L'] [p, x, y, on.toNat]
  | .getPixel p x y => LineSays line ['G', 'E', 'T', 'P', 'I', 'X', 'E', 'L'] [p, x, y]

/-! ### Runs -/

/-- No reset is among the environment's turns. -/
def NoReset (s : State) : Prop := ∀ u ∈ s.env.turns, ∀ c, u ≠ .reset c

/-- `k` steps of the machine, stopping at the first fault or refusal: the host's run of the core (`Laws/Run.lean` proves
them equal). -/
def runSteps : Nat → State → Host.Outcome State Fault Refusal
  | 0, s => .next s
  | k + 1, s =>
    match step s with
    | .next t => runSteps k t
    | .fault r => .fault r
    | .refused r => .refused r

/-- Another list of bus-busy values for the draws to come. -/
def withBusy (bs : List Bool) (s : State) : State := { s with env := { s.env with busyIn := bs } }

/-- Other turns for the steps to come. -/
def withTurns (us : List Turn) (s : State) : State := { s with env := { s.env with turns := us } }

/-- A change made to the state of a next outcome, stops left as they are. -/
def mapNext (f : State → State) (o : Host.Outcome State Fault Refusal) : Host.Outcome State Fault Refusal :=
  match o with
  | .next t => .next (f t)
  | .fault r => .fault r
  | .refused r => .refused r

end Sys2Proof.Safety
end

