-- ==== Sys2Proof/Certificates/Slice0/Obligations.lean ====
section
/-! DEFINITION. The statements for the provers. Each docstring names the rule of spec/ it formalises. None rests on the
value of a free value: `Config.resetByte`, `Config.portFirst` and `Config.freeBusy` have no body. -/

open Sys2Proof Sys2Proof.Machine Sys2Proof.Safety

/-! ### Command words -/

/-- Words of 95_test_vectors.md (V1–V17, I1–I7, L3) decode to the commands written beside them. -/
def Obligations.SpecWordsDecode : Prop :=
  decode 0x10000000#32 = .ok .refresh ∧
  decode 0x2100000C#32 = .ok (.setPixel 0 0 12 true) ∧
  decode 0x20000300#32 = .ok (.setPixel 0 3 0 false) ∧
  decode 0x21FF1F0F#32 = .ok (.setPixel 255 31 15 true) ∧
  decode 0x3000000C#32 = .ok (.getPixel 0 0 12) ∧
  decode 0x3000FF00#32 = .ok (.getPixel 0 255 0) ∧
  decode 0x00000000#32 = .error .reservedOp ∧
  decode 0xF0000000#32 = .error .reservedOp ∧
  decode 0x10000001#32 = .error .refreshNotPlain ∧
  decode 0x22000000#32 = .error .setPixelReserved ∧
  decode 0x2E000020#32 = .error .setPixelReserved ∧
  decode 0x31000000#32 = .error .getPixelReserved

/-- R72, R73, R74: the words of each pattern, and no others, carry the command, with its operands in the fields the
pattern shows. -/
def Obligations.WordsOfEachPatternDecode : Prop :=
  ∀ w : Word,
    (decode w = .ok .refresh ↔ w = 0x10000000#32) ∧
    ((∃ p x y on, decode w = .ok (.setPixel p x y on)) ↔ w.toNat / 2 ^ 25 = 0b0010000) ∧
    ((∃ p x y, decode w = .ok (.getPixel p x y)) ↔ w.toNat / 2 ^ 24 = 0b00110000) ∧
    (w.toNat / 2 ^ 25 = 0b0010000 → decode w =
      .ok (.setPixel (w.toNat / 2 ^ 16 % 2 ^ 8) (w.toNat / 2 ^ 8 % 2 ^ 8) (w.toNat % 2 ^ 8) (w.getLsbD 24))) ∧
    (w.toNat / 2 ^ 24 = 0b00110000 → decode w =
      .ok (.getPixel (w.toNat / 2 ^ 16 % 2 ^ 8) (w.toNat / 2 ^ 8 % 2 ^ 8) (w.toNat % 2 ^ 8)))

/-- Decoding an encoded well-formed command gives it back (30_encoding.md, R72 to R75). -/
def Obligations.DecodeOfEncodeIsTheCommand : Prop :=
  ∀ i : Instr, i.wellFormed = true → decode (encode i) = .ok i

/-- A legal word has one meaning: it is the word of the command it decodes to, which is well formed. -/
def Obligations.EncodeOfDecodeIsTheWord : Prop :=
  ∀ (w : Word) (i : Instr), decode w = .ok i → i.wellFormed = true ∧ encode i = w

/-- R76: exactly the words of the four cases are illegal; each responds ILLEGAL_COMMAND and changes nothing else. -/
def Obligations.IllegalWordsRespondAndDoNothing : Prop :=
  ∀ (w : Word) (s : State),
    (IllegalCase w → (∃ r, decode w = .error r) ∧ runWord w s = .next { s with responses := s.responses ++ [2#32] }) ∧
    (¬IllegalCase w → ∃ i, decode w = .ok i)

/-! ### The machine step -/

/-- A step runs the decoded command, responds to an illegal word, or runs the micro-step (R77, R155 a and b). At a
command-port step the turn is used up and the oldest word is taken from the port, nothing else changes before the command
runs, and the rest is `exec`, or for an illegal word the response ILLEGAL_COMMAND alone. At a ScanEngine step the turn is
used up, nothing else changes before the micro-step, and the rest is `microStep`. -/
def Obligations.StepRunsTheDecodedCommand : Prop :=
  (∀ (s : State) (w : Word), nextMove s = .port w →
    step s = runWord w (takeWord (useTurn s)) ∧
    s.env.commands = w :: (takeWord (useTurn s)).env.commands ∧
    takeWord (useTurn s) = { s with env := (takeWord (useTurn s)).env } ∧
    (takeWord (useTurn s)).env.busyIn = s.env.busyIn ∧ (takeWord (useTurn s)).env.turns = s.env.turns.tail ∧
    (∀ i, decode w = .ok i → step s = exec i (takeWord (useTurn s))) ∧
    (∀ r, decode w = .error r →
      step s = .next { takeWord (useTurn s) with responses := s.responses ++ [2#32] })) ∧
  (∀ s : State, nextMove s = .engine →
    step s = microStep (useTurn s) ∧ useTurn s = { s with env := (useTurn s).env } ∧
    (useTurn s).env.commands = s.env.commands ∧ (useTurn s).env.busyIn = s.env.busyIn ∧
    (useTurn s).env.turns = s.env.turns.tail)

/-- When the turn is no reset: a waiting word and an idle engine make the port step on the oldest word, a running refresh
and no word make the engine step, and when both are there each of the two can be chosen. A reset can always be. R155. -/
def Obligations.EveryEnabledAgentCanBeChosen : Prop :=
  (∀ (s : State) (w : Word) (rest : List Word), NoReset s → s.env.commands = w :: rest → s.phase = .idle →
    nextMove s = .port w ∧ (takeWord (useTurn s)).env.commands = rest) ∧
  (∀ s : State, NoReset s → s.env.commands = [] → s.phase ≠ .idle → nextMove s = .engine) ∧
  (∀ (s : State) (w : Word) (rest : List Word) (us : List Turn), s.env.commands = w :: rest → s.phase ≠ .idle →
    nextMove (withTurns (.port :: us) s) = .port w ∧ nextMove (withTurns (.engine :: us) s) = .engine) ∧
  (∀ (s : State) (c : Params) (us : List Turn), nextMove (withTurns (.reset c :: us) s) = .reset c)

/-- When nothing is enabled the machine waits: only the environment's turn is used up. The spec gives no step there, so this
is the model's choice (log entry 6). -/
def Obligations.IdleMachineWaitsForTheEnvironment : Prop :=
  ∀ s : State, NoReset s → s.env.commands = [] → s.phase = .idle → ∃ e : Env,
    step s = .next { s with env := e } ∧ e.commands = [] ∧ e.busyIn = s.env.busyIn ∧ e.turns = s.env.turns.tail

/-! ### The frame buffer commands -/

/-- R100 (the derived bound): an in-range pixel's byte lies in the frame buffer. -/
def Obligations.InRangePixelIndexIsInTheBuffer : Prop :=
  ∀ (s : State) (p x y : Nat), Geometry s → inRange s p x y = true → pixelIndex s p x y < s.fbSize

/-- R51 (derived): the mask table, and the bit of its byte that each column sits at. -/
def Obligations.MaskTableOfTheColumns : Prop :=
  [mask 0, mask 1, mask 2, mask 3, mask 4, mask 5, mask 6, mask 7] =
    [0x80#8, 0x40#8, 0x20#8, 0x10#8, 0x08#8, 0x04#8, 0x02#8, 0x01#8] ∧
  ∀ x b : Nat, b < 8 → ((maskOf x).getLsbD b = true ↔ b = 7 - x % 8)

/-- R52 (the derived bijection): each bit of the frame buffer belongs to exactly one pixel. -/
def Obligations.PixelsMapOneToOneOntoTheBits : Prop :=
  ∀ s : State, Geometry s →
    (∀ p x y p' x' y' : Nat, inRange s p x y = true → inRange s p' x' y' = true →
      pixelIndex s p x y = pixelIndex s p' x' y' → x % 8 = x' % 8 → p = p' ∧ x = x' ∧ y = y') ∧
    (∀ j b : Nat, j < s.fbSize → b < 8 →
      ∃ p x y, inRange s p x y = true ∧ pixelIndex s p x y = j ∧ 7 - x % 8 = b)

/-- R101: SETPIXEL in range writes the one byte and responds OK; out of range it responds OUT_OF_RANGE and leaves the
buffer unmodified. It always completes. -/
def Obligations.SetPixelWritesItsByteOrRefusesTheRange : Prop :=
  ∀ (s : State) (p x y : Nat) (on : Bool), Geometry s →
    (x < 32 ∧ y < 16 ∧ p < s.params.panels → ∃ t : State,
      exec (.setPixel p x y on) s = .next t ∧
      t = { s with fb := t.fb, responses := s.responses ++ [0#32] } ∧
      t.fbByte (y * s.rowsize + 4 * p + x / 8) =
        (if on then s.fbByte (y * s.rowsize + 4 * p + x / 8) ||| (0x80#8 >>> (x % 8))
         else s.fbByte (y * s.rowsize + 4 * p + x / 8) &&& ~~~(0x80#8 >>> (x % 8))) ∧
      ∀ j, j ≠ y * s.rowsize + 4 * p + x / 8 → t.fbByte j = s.fbByte j) ∧
    (¬(x < 32 ∧ y < 16 ∧ p < s.params.panels) →
      exec (.setPixel p x y on) s = .next { s with responses := s.responses ++ [1#32] })

/-- The frame of SETPIXEL, in every state: only the frame buffer and the response stream change, one response is added, and
every byte but the one at the pixel's index reads as before; every byte, when the pixel is out of range. -/
def Obligations.SetPixelFrame : Prop :=
  ∀ (s t : State) (p x y : Nat) (on : Bool), exec (.setPixel p x y on) s = .next t →
    t = { s with fb := t.fb, responses := t.responses } ∧
    (∃ r, t.responses = s.responses ++ [r]) ∧
    (∀ j, j ≠ pixelIndex s p x y → t.fbByte j = s.fbByte j) ∧
    (inRange s p x y = false → ∀ j, t.fbByte j = s.fbByte j)

/-- SETPIXEL changes no bit but the pixel's own (R103, derived), in every state. -/
def Obligations.SetPixelKeepsEveryOtherBit : Prop :=
  ∀ (s t : State) (p x y : Nat) (on : Bool), exec (.setPixel p x y on) s = .next t →
    ∀ j b : Nat, b < 8 → ¬(j = pixelIndex s p x y ∧ b = 7 - x % 8) →
      (t.fbByte j).getLsbD b = (s.fbByte j).getLsbD b

/-- R102: GETPIXEL in range responds OK with the pixel's bit, bit `7 − (x mod 8)` of its byte; out of range it responds
OUT_OF_RANGE. It writes nothing else and always completes. -/
def Obligations.GetPixelRespondsItsBitOrRefusesTheRange : Prop :=
  ∀ (s : State) (p x y : Nat), Geometry s →
    (x < 32 ∧ y < 16 ∧ p < s.params.panels →
      exec (.getPixel p x y) s = .next { s with responses := s.responses ++
        [if (s.fbByte (y * s.rowsize + 4 * p + x / 8)).getLsbD (7 - x % 8) then 0x100#32 else 0#32] }) ∧
    (¬(x < 32 ∧ y < 16 ∧ p < s.params.panels) →
      exec (.getPixel p x y) s = .next { s with responses := s.responses ++ [1#32] })

/-- The frame of GETPIXEL, in every state: one response is added and nothing else changes. -/
def Obligations.GetPixelFrame : Prop :=
  ∀ (s t : State) (p x y : Nat), exec (.getPixel p x y) s = .next t →
    ∃ r, t = { s with responses := s.responses ++ [r] } ∧ (r = 0#32 ∨ r = 1#32 ∨ r = 0x100#32)

/-- After an in-range SETPIXEL, an in-range GETPIXEL of that pixel responds what was written, and of any other pixel what it
held before (R103, derived). -/
def Obligations.GetPixelAfterSetPixel : Prop :=
  ∀ (s t : State) (p x y p' x' y' : Nat) (on : Bool), Geometry s →
    inRange s p x y = true → inRange s p' x' y' = true → exec (.setPixel p x y on) s = .next t →
    exec (.getPixel p' x' y') t = .next { t with responses := t.responses ++
      [if (if p' = p ∧ x' = x ∧ y' = y then on else (s.fbByte (pixelIndex s p' x' y')).getLsbD (7 - x' % 8))
       then 0x100#32 else 0#32] }

/-! ### REFRESH -/

/-- R140, R141: REFRESH starts a refresh when the engine is IDLE; otherwise DROP does nothing and QUEUE1 sets `pending`. No
response, no event, nothing else. It always completes. -/
def Obligations.RefreshStartsOrFollowsTheOverlapPolicy : Prop :=
  ∀ s : State,
    (s.phase = .idle → exec .refresh s = .next { s with phase := .check }) ∧
    (s.phase ≠ .idle → s.params.overlap = .drop → exec .refresh s = .next s) ∧
    (s.phase ≠ .idle → s.params.overlap = .queue1 → exec .refresh s = .next { s with pending := true })

/-- R142: under QUEUE1 a trigger during a refresh sets `pending`, a further one has no effect, and the queued trigger is
taken at the end of the running refresh or at its skip, and runs as a new refresh from CHECK. -/
def Obligations.QueuedTriggerHasDepthOne : Prop :=
  ∀ s : State, s.params.overlap = .queue1 →
    (s.phase ≠ .idle → exec .refresh s = .next { s with pending := true }) ∧
    (s.phase ≠ .idle → s.pending = true → exec .refresh s = .next s) ∧
    (s.phase = .oeOn → s.pending = true → ∃ t, microStep s = .next t ∧ t.pending = false ∧ t.phase = .check) ∧
    (s.phase = .check → busyValue s = true → s.pending = true →
      ∃ t, microStep s = .next t ∧ t.pending = false ∧ t.phase = .check)

/-! ### The ScanEngine's micro-steps -/

/-- R143: CHECK draws `busy`, 0 when the input does not exist. Busy: `Finish()`, nothing else. Free: the lazy init if the
transport is not configured, else the first byte. Of the environment only what the draw uses up changes. -/
def Obligations.CheckSkipsOrGoesOn : Prop :=
  ∀ s : State, s.phase = .check → (s.params.hasBusyInput = false → busyValue s = false) ∧
    ∃ t : State, microStep s = .next t ∧
    t.env = { s.env with busyIn := t.env.busyIn, draws := t.env.draws } ∧
    (busyValue s = true → s.pending = true → t = { s with phase := .check, pending := false, env := t.env }) ∧
    (busyValue s = true → s.pending = false → t = { s with phase := .idle, env := t.env }) ∧
    (busyValue s = false → s.initDone = false → t = { s with phase := .cfgFreq, env := t.env }) ∧
    (busyValue s = false → s.initDone = true → t = { s with phase := .shift 0 0, env := t.env })

/-- The draw of `busy` is 0 when the input does not exist (R32), else the environment's next value, which is used up. -/
def Obligations.BusyDrawFollowsTheInput : Prop :=
  ∀ s : State,
    (s.params.hasBusyInput = false → busyValue s = false ∧ busyTaken s = s) ∧
    (∀ v vs, s.params.hasBusyInput = true → s.env.busyIn = v :: vs →
      busyValue s = v ∧ (busyTaken s).env.busyIn = vs)

/-- R144, R145: the lazy init emits CfgFreq, then CfgMode, and records that the transport is configured. A micro-step comes
to CFG_FREQ only from CHECK with `init_done = 0`, and `init_done = 1` stays until a reset. -/
def Obligations.LazyInitEmitsClockThenMode : Prop :=
  (∀ s t : State, microStep s = .next t → t.phase = .cfgFreq →
    s.phase = .check ∧ s.initDone = false ∧ t.initDone = false) ∧
  (∀ s t : State, step s = .next t → (∀ c, nextMove s ≠ .reset c) → s.initDone = true → t.initDone = true) ∧
  ∀ s : State,
    (s.phase = .cfgFreq → microStep s =
      .next { s with trace := s.trace ++ [.cfgFreq s.params.spiClock], phase := .cfgMode }) ∧
    (s.phase = .cfgMode → microStep s =
      .next { s with trace := s.trace ++ [.cfgMode s.params.spiMode], initDone := true, phase := .shift 0 0 })

/-- R146, R147: SHIFT(i, k) emits the byte of the frame buffer at `base + i + OFF[k]`, as it is at this micro-step, and goes
to NextShift(i, k). It writes `phase` and the trace only, and always completes under the geometry. -/
def Obligations.ShiftEmitsItsByteAndMovesOn : Prop :=
  ∀ (s : State) (i : Nat) (k : Fin 4), Geometry s → s.phase = .shift i k → i < s.rowsize →
    microStep s = .next { s with
      trace := s.trace ++ [.byte (s.fbByte (s.rowsize * s.seq.toNat + i +
        (if k = 0 then s.row3 else if k = 1 then s.row2 else if k = 2 then s.row1 else 0)))]
      phase := if k = 3 then (if i = s.rowsize - 1 then .oeOff else .shift (i + 1) 0) else .shift i (k + 1) }

/-- R148 to R152: the micro-steps that blank the output, pulse the latch and write the row-select lines from the current
`seq`. `latch` stays 0 from LATCH_LO until a LATCH_HI, A and B are written while `oe = 0`, and ROW_B leaves the pair of the
current `seq` where ROW_A has written its bit. -/
def Obligations.PinMicroStepsWriteTheirLine : Prop :=
  (∀ s t : State, step s = .next t → s.latch = false → ¬(nextMove s = .engine ∧ s.phase = .latchHi) → t.latch = false) ∧
  (∀ s : State, Inv s → s.phase = .rowA ∨ s.phase = .rowB → s.oe = false) ∧
  (∀ s t : State, RowLines s → s.phase = .rowB → microStep s = .next t → (t.a, t.b) = rowSelect t.seq) ∧
  ∀ s : State,
    (s.phase = .oeOff → microStep s =
      .next { s with oe := false, trace := s.trace ++ [.pin .oe false], phase := .latchHi }) ∧
    (s.phase = .latchHi → microStep s =
      .next { s with latch := true, trace := s.trace ++ [.pin .lat true], phase := .latchLo }) ∧
    (s.phase = .latchLo → microStep s =
      .next { s with latch := false, trace := s.trace ++ [.pin .lat false], phase := .rowA }) ∧
    (s.phase = .rowA → microStep s =
      .next { s with a := s.seq.getLsbD 0, trace := s.trace ++ [.pin .a (s.seq.getLsbD 0)], phase := .rowB }) ∧
    (s.phase = .rowB → microStep s =
      .next { s with b := s.seq.getLsbD 1, trace := s.trace ++ [.pin .b (s.seq.getLsbD 1)], phase := .advance })

/-- R122, R153: ADVANCE moves `seq` to (seq + 1) mod 4, writes nothing else but `phase`, and returns the new state's pair.
It is the only write to `seq` but a reset. -/
def Obligations.AdvanceMovesToTheNextGroup : Prop :=
  (∀ s t : State, step s = .next t → t.seq ≠ s.seq →
    (nextMove s = .engine ∧ s.phase = .advance) ∨ ∃ c, nextMove s = .reset c) ∧
  ∀ s : State,
    ((advanceSeq s).1.seq.toNat = (s.seq.toNat + 1) % 4 ∧
      (advanceSeq s).2 = rowSelect (advanceSeq s).1.seq ∧ (advanceSeq s).1 = { s with seq := (advanceSeq s).1.seq }) ∧
    (s.phase = .advance → microStep s = .next { s with seq := (advanceSeq s).1.seq, phase := .oeOn })

/-- R154: OE_ON re-enables output and finishes. The engine comes to it only through ROW_A, ROW_B and ADVANCE, so after both
row-select writes. -/
def Obligations.OutputIsReenabledAtTheEnd : Prop :=
  (∀ s t : State, microStep s = .next t → (t.phase = .rowB → s.phase = .rowA) ∧ (t.phase = .advance → s.phase = .rowB) ∧
    (t.phase = .oeOn → s.phase = .advance)) ∧
  ∀ s : State, s.phase = .oeOn →
    (s.pending = false → microStep s =
      .next { s with oe := true, trace := s.trace ++ [.pin .oe true], phase := .idle }) ∧
    (s.pending = true → microStep s =
      .next { s with oe := true, trace := s.trace ++ [.pin .oe true], pending := false, phase := .check })

/-- R82: `seq` is a 2-bit binary number whose bits are the row-select pair (A, B); the table of R121, row by row. -/
def Obligations.RowSelectEncodesTheGroup : Prop :=
  rowSelect 0#2 = (false, false) ∧ rowSelect 1#2 = (true, false) ∧ rowSelect 2#2 = (false, true) ∧
  rowSelect 3#2 = (true, true) ∧
  ∀ q : BitVec 2, rowSelect q = (q.getLsbD 0, q.getLsbD 1) ∧
    q.toNat = (rowSelect q).1.toNat + 2 * (rowSelect q).2.toNat

/-! ### What changes what -/

/-- `seq` changes only when the ScanEngine runs ADVANCE, then by one modulo 4, or at a reset (R23, R126). -/
def Obligations.SeqChangesOnlyAtAdvance : Prop :=
  ∀ s t : State, step s = .next t →
    t.seq = s.seq ∨
    (nextMove s = .engine ∧ s.phase = .advance ∧ t.seq.toNat = (s.seq.toNat + 1) % 4) ∨
    (∃ c, nextMove s = .reset c ∧ t.seq = 0#2)

/-- R28: `oe` is 0 at reset, OE_OFF alone writes it 0 and OE_ON alone writes it 1, a skip among the steps that leave it, and
the pin's level is `oe` or its complement by OE_ACTIVE_LEVEL. -/
def Obligations.OutputEnableIsWrittenByItsTwoMicroSteps : Prop :=
  (∀ (c : Params) (n : Nat) (e : Env), (State.resetWith c n e).oe = false) ∧
  (∀ s : State, (s.params.oeActiveLevel = true → oePin s = s.oe) ∧
    (s.params.oeActiveLevel = false → oePin s = !s.oe)) ∧
  (∀ s t : State, step s = .next t → (∀ c, nextMove s ≠ .reset c) →
    t.oe = if nextMove s = .engine ∧ s.phase = .oeOff then false
      else if nextMove s = .engine ∧ s.phase = .oeOn then true else s.oe)

/-- The latch line and the row-select lines change only at their own micro-steps, or at a reset; the latch pin's level is
`latch` or its complement by LATCH_ACTIVE_LEVEL, and the levels of A and B are the logical values (R29, R30). -/
def Obligations.LatchAndRowLinesAreWrittenByTheirMicroSteps : Prop :=
  (∀ s : State, (s.params.latchActiveLevel = true → latchPin s = s.latch) ∧
    (s.params.latchActiveLevel = false → latchPin s = !s.latch) ∧ rowAPin s = s.a ∧ rowBPin s = s.b) ∧
  ∀ s t : State, step s = .next t → (∀ c, nextMove s ≠ .reset c) →
    (t.latch = if nextMove s = .engine ∧ s.phase = .latchHi then true
      else if nextMove s = .engine ∧ s.phase = .latchLo then false else s.latch) ∧
    (t.a = if nextMove s = .engine ∧ s.phase = .rowA then s.seq.getLsbD 0 else s.a) ∧
    (t.b = if nextMove s = .engine ∧ s.phase = .rowB then s.seq.getLsbD 1 else s.b)

/-- R24: `init_done` is 0 at reset, set by CFG_MODE alone, and stays set until the next reset. -/
def Obligations.InitDoneIsSetOnceByTheLazyInit : Prop :=
  (∀ (c : Params) (n : Nat) (e : Env), (State.resetWith c n e).initDone = false) ∧
  ∀ s t : State, step s = .next t → (∀ c, nextMove s ≠ .reset c) →
    t.initDone = if nextMove s = .engine ∧ s.phase = .cfgMode then true else s.initDone

/-- The geometry is fixed between resets (R209). So are the other launch parameters, which reset takes (R8, R200), and the
draw of the frame buffer's reset contents, which R201 fixes at reset: its number `fbDraw` is the model's own field (log
entry 3). -/
def Obligations.GeometryIsFixedBetweenResets : Prop :=
  ∀ s t : State, step s = .next t → (∀ c, nextMove s ≠ .reset c) →
    t.params = s.params ∧ t.rowsize = s.rowsize ∧ t.row1 = s.row1 ∧ t.row2 = s.row2 ∧ t.row3 = s.row3 ∧
    t.fbSize = s.fbSize ∧ t.fbDraw = s.fbDraw

/-- What a word on the port may change, and when: the frame buffer and the responses; `phase` only from IDLE, to CHECK, by
a REFRESH; `pending` only by a REFRESH during a refresh under QUEUE1 (R21, R126, R140 to R142, R160). -/
def Obligations.WhatAWordOnThePortMayChange : Prop :=
  ∀ (s t : State) (w : Word), runWord w s = .next t →
    t = { s with fb := t.fb, responses := t.responses, pending := t.pending, phase := t.phase } ∧
    (t.phase = s.phase ∨ (s.phase = .idle ∧ t.phase = .check ∧ decode w = .ok .refresh)) ∧
    (t.pending = s.pending ∨ (s.phase ≠ .idle ∧ s.params.overlap = .queue1 ∧ decode w = .ok .refresh))

/-- A byte of the frame buffer changes only by an in-range SETPIXEL to its index, or at a reset: every other step leaves
each byte as it reads (R50, R58, R61). -/
def Obligations.BytesChangeOnlyBySetPixelOrReset : Prop :=
  ∀ (s t : State) (j : Nat), step s = .next t → t.fbByte j ≠ s.fbByte j →
    (∃ c, nextMove s = .reset c) ∨
    (∃ w p x y on, nextMove s = .port w ∧ decode w = .ok (.setPixel p x y on) ∧ inRange s p x y = true ∧
      j = pixelIndex s p x y)

/-- A ScanEngine micro-step writes neither the frame buffer nor the response stream and takes no command word. -/
def Obligations.MicroStepsWriteNoByteAndNoResponse : Prop :=
  ∀ s t : State, microStep s = .next t →
    t.fb = s.fb ∧ (∀ j, t.fbByte j = s.fbByte j) ∧ t.responses = s.responses ∧
    t.env.commands = s.env.commands ∧ t.env.turns = s.env.turns ∧ t.params = s.params

/-- Every word but REFRESH answers with exactly one response word, one of the four that R78 and R79 leave; REFRESH with
none. -/
def Obligations.EveryWordButRefreshAnswersOnce : Prop :=
  ∀ (w : Word) (s t : State), runWord w s = .next t →
    (decode w = .ok .refresh → t.responses = s.responses) ∧
    (decode w ≠ .ok .refresh → ∃ r, t.responses = s.responses ++ [r] ∧
      (r = 0#32 ∨ r = 1#32 ∨ r = 2#32 ∨ r = 0x100#32))

/-- BUS_BUSY is sampled only at CHECK: with other values to come, every other step does the same (R161). -/
def Obligations.BusyIsSampledOnlyAtCheck : Prop :=
  ∀ (s : State) (bs : List Bool), (s.phase ≠ .check ∨ nextMove s ≠ .engine) →
    step (withBusy bs s) = mapNext (withBusy bs) (step s)

/-! ### Invariants of the machine step -/

/-- The invariants of R36 (derived), with the canonical form of the frame buffer, are kept by every step: commands, illegal
words, micro-steps, resets and waiting. -/
def Obligations.EveryStepKeepsTheInvariant : Prop :=
  ∀ s t : State, Inv s → step s = .next t → Inv t

/-- The state after reset, with the launch parameters of `State.reset` and with any admitted ones, meets every invariant
stated here (R35, R36). -/
def Obligations.ResetMeetsEveryInvariant : Prop :=
  (Inv State.reset ∧ SeqTracks State.reset ∧ RowLines State.reset ∧ TraceInPattern State.reset) ∧
  ∀ (c : Params) (n : Nat) (e : Env), 1 ≤ c.panels → c.panels ≤ 256 →
    Inv (State.resetWith c n e) ∧ SeqTracks (State.resetWith c n e) ∧ RowLines (State.resetWith c n e) ∧
    TraceInPattern (State.resetWith c n e)

/-- `seq` counts the completed refreshes modulo 4 (R124, derived): every step keeps it. -/
def Obligations.EveryStepKeepsSeqTheCountOfRefreshes : Prop :=
  ∀ s t : State, SeqTracks s → step s = .next t → SeqTracks t

/-- Every trace since reset is a prefix of complete refreshes in the fixed order of R156 (derived), and `phase` says where it
stands: the lazy init once and before the first byte (R163), all 16·P bytes and then the six pins (R158, R160), A and B from
the group driven. Every step keeps it. -/
def Obligations.EveryStepKeepsTheTraceInPattern : Prop :=
  ∀ s t : State, Inv s → TraceInPattern s → step s = .next t → TraceInPattern t

/-- The row-select latches hold the group of the last completed refresh outside ROW_B, ADVANCE and OE_ON (R30, R37, derived).
Every step keeps it. -/
def Obligations.EveryStepKeepsTheRowLines : Prop :=
  ∀ s t : State, RowLines s → step s = .next t → RowLines t

/-- Between refreshes, once one has completed, the row-select latches name group `(seq + 3) mod 4` (R37, derived). -/
def Obligations.LitGroupIsTheOneBeforeSeq : Prop :=
  ∀ s : State, RowLines s → s.phase = .idle → 0 < completed s → selectedGroup s = (s.seq.toNat + 3) % 4

/-- The block has no fault state (R181): under the invariant every step goes on, but for a reset whose P lies outside
1..256, which is refused (R6). -/
def Obligations.NothingStopsTheBlock : Prop :=
  ∀ s : State, Inv s →
    (∃ t, step s = .next t) ∨
    (∃ c, nextMove s = .reset c ∧ ¬(1 ≤ c.panels ∧ c.panels ≤ 256) ∧ step s = .refused (.badConfiguration c.panels))

/-! ### Reset -/

/-- R200: a reset step refuses a P outside 1..256, else computes the constants, sets every register to its reset value,
gives every byte of the frame buffer an unspecified value, and empties the trace and the response stream. The values are the
free ones of a draw whose number, `fbDraw`, is the model's own field, and that each reset takes a new number is the model's
choice (log entry 3). -/
def Obligations.ResetStepAppliesTheResetValues : Prop :=
  ∀ (s : State) (c : Params) (us : List Turn), s.env.turns = .reset c :: us →
    (¬(1 ≤ c.panels ∧ c.panels ≤ 256) → step s = .refused (.badConfiguration c.panels)) ∧
    (1 ≤ c.panels ∧ c.panels ≤ 256 → ∃ (t : State) (n : Nat), step s = .next t ∧ t.params = c ∧
      t.rowsize = 4 * c.panels ∧ t.row1 = 16 * c.panels ∧ t.row2 = 32 * c.panels ∧ t.row3 = 48 * c.panels ∧
      t.fbSize = 64 * c.panels ∧ t.seq = 0#2 ∧ t.initDone = false ∧ t.pending = false ∧ t.phase = .idle ∧
      t.oe = false ∧ t.latch = false ∧ t.a = false ∧ t.b = false ∧ t.trace = [] ∧ t.responses = [] ∧
      n ≠ s.fbDraw ∧ ∀ j, t.fbByte j = Config.resetByte n j)

/-- R35: the reset value of every piece of state, for the one `State.reset` and its P (log entry 1). The bytes of the frame
buffer are free values of the draw that the model's own field `fbDraw` numbers (log entry 3). -/
def Obligations.ResetStateHoldsTheResetValues : Prop :=
  State.reset.seq = 0#2 ∧ State.reset.initDone = false ∧ State.reset.pending = false ∧ State.reset.phase = .idle ∧
  State.reset.oe = false ∧ State.reset.latch = false ∧ State.reset.a = false ∧ State.reset.b = false ∧
  State.reset.rowsize = 4 * State.reset.params.panels ∧ State.reset.row1 = 16 * State.reset.params.panels ∧
  State.reset.row2 = 32 * State.reset.params.panels ∧ State.reset.row3 = 48 * State.reset.params.panels ∧
  State.reset.fbSize = 64 * State.reset.params.panels ∧
  (∀ j, State.reset.fbByte j = Config.resetByte State.reset.fbDraw j) ∧
  State.reset.trace = [] ∧ State.reset.responses = []

/-! ### One refresh -/

/-- What an accepted refresh that is not skipped does when nothing interleaves (R156, derived): after
`1 + 2·[init_done was 0] + 16·P + 7` steps of the machine it has emitted exactly the events of R156, and `seq`, `init_done`,
`oe`, `latch`, `a` and `b` hold what R156 says; the frame buffer and the responses are as before. -/
def Obligations.RefreshEmitsItsTraceAndCompletes : Prop :=
  ∀ s : State, Inv s → NoReset s → s.env.commands = [] → s.phase = .check → busyValue (useTurn s) = false →
    ∃ t : State, runSteps (refreshSteps s) s = .next t ∧
      t = { s with
        trace := s.trace ++ refreshEvents s
        seq := s.seq + 1#2
        initDone := true
        pending := false
        phase := if s.pending then .check else .idle
        oe := true
        latch := false
        a := s.seq.getLsbD 0
        b := s.seq.getLsbD 1
        env := t.env }

/-- After a refresh that nothing interleaves with, the data latched into the panel are the bytes of rows s+12, s+8, s+4 and
s, for each byte position in turn, and the lines select group s: data and selected group agree (R157, R162, derived). The
latched data are those of the view of the trace that log entry 13 chooses. -/
def Obligations.LatchedDataAgreeWithTheSelectedGroup : Prop :=
  ∀ s : State, Inv s → NoReset s → s.env.commands = [] → s.phase = .check → busyValue (useTurn s) = false →
    ∃ t : State, runSteps (refreshSteps s) s = .next t ∧ selectedGroup t = s.seq.toNat ∧
      (outsideOf t.params t.trace).latched = (List.range s.rowsize).flatMap (fun i =>
        [s.fbByte ((s.seq.toNat + 12) * s.rowsize + i), s.fbByte ((s.seq.toNat + 8) * s.rowsize + i),
         s.fbByte ((s.seq.toNat + 4) * s.rowsize + i), s.fbByte (s.seq.toNat * s.rowsize + i)]) ∧
      (outsideOf t.params t.trace).a = s.seq.getLsbD 0 ∧ (outsideOf t.params t.trace).b = s.seq.getLsbD 1 ∧
      (outsideOf t.params t.trace).oe = true ∧ (outsideOf t.params t.trace).lat = false

/-- A running refresh only moves on (R160, derived): each micro-step past CHECK leaves one fewer, until OE_ON ends it. -/
def Obligations.EachMicroStepLeavesOneFewer : Prop :=
  ∀ s t : State, Inv s → s.phase ≠ .idle → s.phase ≠ .check → microStep s = .next t →
    (s.phase = .oeOn ∧ (t.phase = .idle ∨ t.phase = .check)) ∨
    (s.phase ≠ .oeOn ∧ remainingSteps t + 1 = remainingSteps s)

/-- Byte number n of a refresh reads byte `n div 4` of row slice `seq + 4·(3 − n mod 4)` (R157, derived). -/
def Obligations.ByteStreamInClosedForm : Prop :=
  ∀ (s : State) (n : Nat), Geometry s → n < 16 * s.params.panels →
    n / 4 < s.rowsize ∧
    shiftIndex s (n / 4) (Fin.ofNat 4 n) = (s.seq.toNat + 4 * (3 - n % 4)) * s.rowsize + n / 4

/-- Over the four sequencer states every byte of the frame buffer is read exactly once, and nothing beyond it (R54,
derived). -/
def Obligations.FourRefreshesReadEveryByteOnce : Prop :=
  ∀ s : State, Geometry s →
    (∀ (q : BitVec 2) (i : Nat) (k : Fin 4), i < s.rowsize → shiftIndex (s.setSeq q) i k < s.fbSize) ∧
    (∀ j, j < s.fbSize → ∃ (q : BitVec 2) (i : Nat) (k : Fin 4), i < s.rowsize ∧ shiftIndex (s.setSeq q) i k = j) ∧
    (∀ (q q' : BitVec 2) (i i' : Nat) (k k' : Fin 4), i < s.rowsize → i' < s.rowsize →
      shiftIndex (s.setSeq q) i k = shiftIndex (s.setSeq q') i' k' → q = q' ∧ i = i' ∧ k = k')

/-! ### The assembler -/

/-- R80: a line reads as a command exactly when it spells it, in one of the three forms, its mnemonic in either case, its
operands decimal or `0x` hexadecimal, a comment after `;`; the assembler encodes such a line, to a word that decodes to the
command, and it makes no other word. An operand above 255, and an `on` outside {0, 1}, is an assembly error. Blanks and the
case of hexadecimal digits are the model's choice (log entry 12). -/
def Obligations.AssembledWordsDecodeToTheirLine : Prop :=
  ∀ line : List Char,
    (∀ i, parseLine line = .command i ↔ LineSpells line i) ∧
    (∀ i, parseLine line = .command i → i.wellFormed = true →
      assembleLine line = .word (encode i) ∧ decode (encode i) = .ok i) ∧
    (∀ w, assembleLine line = .word w → ∃ i, parseLine line = .command i ∧ encode i = w ∧ decode w = .ok i) ∧
    (∀ i, parseLine line = .command i → i.wellFormed = false → assembleLine line = .error) ∧
    (∀ p x y v, LineSays line ['S', 'E', 'T', 'P', 'I', 'X', 'E', 'L'] [p, x, y, v] → 1 < v →
      assembleLine line = .error)
end

