-- ==== Sys2Proof/Laws/State.lean ====
section
/-! SUPPORT. One lemma per field per update of State, so that no proof unfolds a record update. -/

namespace Sys2Proof.Machine

variable (s : State)

@[simp] theorem State.setPhase_params (x : Phase) : (s.setPhase x).params = s.params := rfl
@[simp] theorem State.setPhase_rowsize (x : Phase) : (s.setPhase x).rowsize = s.rowsize := rfl
@[simp] theorem State.setPhase_row1 (x : Phase) : (s.setPhase x).row1 = s.row1 := rfl
@[simp] theorem State.setPhase_row2 (x : Phase) : (s.setPhase x).row2 = s.row2 := rfl
@[simp] theorem State.setPhase_row3 (x : Phase) : (s.setPhase x).row3 = s.row3 := rfl
@[simp] theorem State.setPhase_fbSize (x : Phase) : (s.setPhase x).fbSize = s.fbSize := rfl
@[simp] theorem State.setPhase_fb (x : Phase) : (s.setPhase x).fb = s.fb := rfl
@[simp] theorem State.setPhase_fbDraw (x : Phase) : (s.setPhase x).fbDraw = s.fbDraw := rfl
@[simp] theorem State.setPhase_seq (x : Phase) : (s.setPhase x).seq = s.seq := rfl
@[simp] theorem State.setPhase_initDone (x : Phase) : (s.setPhase x).initDone = s.initDone := rfl
@[simp] theorem State.setPhase_pending (x : Phase) : (s.setPhase x).pending = s.pending := rfl
@[simp] theorem State.setPhase_phase (x : Phase) : (s.setPhase x).phase = x := rfl
@[simp] theorem State.setPhase_oe (x : Phase) : (s.setPhase x).oe = s.oe := rfl
@[simp] theorem State.setPhase_latch (x : Phase) : (s.setPhase x).latch = s.latch := rfl
@[simp] theorem State.setPhase_a (x : Phase) : (s.setPhase x).a = s.a := rfl
@[simp] theorem State.setPhase_b (x : Phase) : (s.setPhase x).b = s.b := rfl
@[simp] theorem State.setPhase_trace (x : Phase) : (s.setPhase x).trace = s.trace := rfl
@[simp] theorem State.setPhase_responses (x : Phase) : (s.setPhase x).responses = s.responses := rfl
@[simp] theorem State.setPhase_env (x : Phase) : (s.setPhase x).env = s.env := rfl
@[simp] theorem State.setPhase_fbByte (x : Phase) (j : Nat) : (s.setPhase x).fbByte j = s.fbByte j := rfl

@[simp] theorem State.setPending_params (v : Bool) : (s.setPending v).params = s.params := rfl
@[simp] theorem State.setPending_rowsize (v : Bool) : (s.setPending v).rowsize = s.rowsize := rfl
@[simp] theorem State.setPending_row1 (v : Bool) : (s.setPending v).row1 = s.row1 := rfl
@[simp] theorem State.setPending_row2 (v : Bool) : (s.setPending v).row2 = s.row2 := rfl
@[simp] theorem State.setPending_row3 (v : Bool) : (s.setPending v).row3 = s.row3 := rfl
@[simp] theorem State.setPending_fbSize (v : Bool) : (s.setPending v).fbSize = s.fbSize := rfl
@[simp] theorem State.setPending_fb (v : Bool) : (s.setPending v).fb = s.fb := rfl
@[simp] theorem State.setPending_fbDraw (v : Bool) : (s.setPending v).fbDraw = s.fbDraw := rfl
@[simp] theorem State.setPending_seq (v : Bool) : (s.setPending v).seq = s.seq := rfl
@[simp] theorem State.setPending_initDone (v : Bool) : (s.setPending v).initDone = s.initDone := rfl
@[simp] theorem State.setPending_pending (v : Bool) : (s.setPending v).pending = v := rfl
@[simp] theorem State.setPending_phase (v : Bool) : (s.setPending v).phase = s.phase := rfl
@[simp] theorem State.setPending_oe (v : Bool) : (s.setPending v).oe = s.oe := rfl
@[simp] theorem State.setPending_latch (v : Bool) : (s.setPending v).latch = s.latch := rfl
@[simp] theorem State.setPending_a (v : Bool) : (s.setPending v).a = s.a := rfl
@[simp] theorem State.setPending_b (v : Bool) : (s.setPending v).b = s.b := rfl
@[simp] theorem State.setPending_trace (v : Bool) : (s.setPending v).trace = s.trace := rfl
@[simp] theorem State.setPending_responses (v : Bool) : (s.setPending v).responses = s.responses := rfl
@[simp] theorem State.setPending_env (v : Bool) : (s.setPending v).env = s.env := rfl
@[simp] theorem State.setPending_fbByte (v : Bool) (j : Nat) : (s.setPending v).fbByte j = s.fbByte j := rfl

@[simp] theorem State.setInitDone_params (v : Bool) : (s.setInitDone v).params = s.params := rfl
@[simp] theorem State.setInitDone_rowsize (v : Bool) : (s.setInitDone v).rowsize = s.rowsize := rfl
@[simp] theorem State.setInitDone_row1 (v : Bool) : (s.setInitDone v).row1 = s.row1 := rfl
@[simp] theorem State.setInitDone_row2 (v : Bool) : (s.setInitDone v).row2 = s.row2 := rfl
@[simp] theorem State.setInitDone_row3 (v : Bool) : (s.setInitDone v).row3 = s.row3 := rfl
@[simp] theorem State.setInitDone_fbSize (v : Bool) : (s.setInitDone v).fbSize = s.fbSize := rfl
@[simp] theorem State.setInitDone_fb (v : Bool) : (s.setInitDone v).fb = s.fb := rfl
@[simp] theorem State.setInitDone_fbDraw (v : Bool) : (s.setInitDone v).fbDraw = s.fbDraw := rfl
@[simp] theorem State.setInitDone_seq (v : Bool) : (s.setInitDone v).seq = s.seq := rfl
@[simp] theorem State.setInitDone_initDone (v : Bool) : (s.setInitDone v).initDone = v := rfl
@[simp] theorem State.setInitDone_pending (v : Bool) : (s.setInitDone v).pending = s.pending := rfl
@[simp] theorem State.setInitDone_phase (v : Bool) : (s.setInitDone v).phase = s.phase := rfl
@[simp] theorem State.setInitDone_oe (v : Bool) : (s.setInitDone v).oe = s.oe := rfl
@[simp] theorem State.setInitDone_latch (v : Bool) : (s.setInitDone v).latch = s.latch := rfl
@[simp] theorem State.setInitDone_a (v : Bool) : (s.setInitDone v).a = s.a := rfl
@[simp] theorem State.setInitDone_b (v : Bool) : (s.setInitDone v).b = s.b := rfl
@[simp] theorem State.setInitDone_trace (v : Bool) : (s.setInitDone v).trace = s.trace := rfl
@[simp] theorem State.setInitDone_responses (v : Bool) : (s.setInitDone v).responses = s.responses := rfl
@[simp] theorem State.setInitDone_env (v : Bool) : (s.setInitDone v).env = s.env := rfl
@[simp] theorem State.setInitDone_fbByte (v : Bool) (j : Nat) : (s.setInitDone v).fbByte j = s.fbByte j := rfl

@[simp] theorem State.setSeq_params (q : BitVec 2) : (s.setSeq q).params = s.params := rfl
@[simp] theorem State.setSeq_rowsize (q : BitVec 2) : (s.setSeq q).rowsize = s.rowsize := rfl
@[simp] theorem State.setSeq_row1 (q : BitVec 2) : (s.setSeq q).row1 = s.row1 := rfl
@[simp] theorem State.setSeq_row2 (q : BitVec 2) : (s.setSeq q).row2 = s.row2 := rfl
@[simp] theorem State.setSeq_row3 (q : BitVec 2) : (s.setSeq q).row3 = s.row3 := rfl
@[simp] theorem State.setSeq_fbSize (q : BitVec 2) : (s.setSeq q).fbSize = s.fbSize := rfl
@[simp] theorem State.setSeq_fb (q : BitVec 2) : (s.setSeq q).fb = s.fb := rfl
@[simp] theorem State.setSeq_fbDraw (q : BitVec 2) : (s.setSeq q).fbDraw = s.fbDraw := rfl
@[simp] theorem State.setSeq_seq (q : BitVec 2) : (s.setSeq q).seq = q := rfl
@[simp] theorem State.setSeq_initDone (q : BitVec 2) : (s.setSeq q).initDone = s.initDone := rfl
@[simp] theorem State.setSeq_pending (q : BitVec 2) : (s.setSeq q).pending = s.pending := rfl
@[simp] theorem State.setSeq_phase (q : BitVec 2) : (s.setSeq q).phase = s.phase := rfl
@[simp] theorem State.setSeq_oe (q : BitVec 2) : (s.setSeq q).oe = s.oe := rfl
@[simp] theorem State.setSeq_latch (q : BitVec 2) : (s.setSeq q).latch = s.latch := rfl
@[simp] theorem State.setSeq_a (q : BitVec 2) : (s.setSeq q).a = s.a := rfl
@[simp] theorem State.setSeq_b (q : BitVec 2) : (s.setSeq q).b = s.b := rfl
@[simp] theorem State.setSeq_trace (q : BitVec 2) : (s.setSeq q).trace = s.trace := rfl
@[simp] theorem State.setSeq_responses (q : BitVec 2) : (s.setSeq q).responses = s.responses := rfl
@[simp] theorem State.setSeq_env (q : BitVec 2) : (s.setSeq q).env = s.env := rfl
@[simp] theorem State.setSeq_fbByte (q : BitVec 2) (j : Nat) : (s.setSeq q).fbByte j = s.fbByte j := rfl

@[simp] theorem State.setOe_params (v : Bool) : (s.setOe v).params = s.params := rfl
@[simp] theorem State.setOe_rowsize (v : Bool) : (s.setOe v).rowsize = s.rowsize := rfl
@[simp] theorem State.setOe_row1 (v : Bool) : (s.setOe v).row1 = s.row1 := rfl
@[simp] theorem State.setOe_row2 (v : Bool) : (s.setOe v).row2 = s.row2 := rfl
@[simp] theorem State.setOe_row3 (v : Bool) : (s.setOe v).row3 = s.row3 := rfl
@[simp] theorem State.setOe_fbSize (v : Bool) : (s.setOe v).fbSize = s.fbSize := rfl
@[simp] theorem State.setOe_fb (v : Bool) : (s.setOe v).fb = s.fb := rfl
@[simp] theorem State.setOe_fbDraw (v : Bool) : (s.setOe v).fbDraw = s.fbDraw := rfl
@[simp] theorem State.setOe_seq (v : Bool) : (s.setOe v).seq = s.seq := rfl
@[simp] theorem State.setOe_initDone (v : Bool) : (s.setOe v).initDone = s.initDone := rfl
@[simp] theorem State.setOe_pending (v : Bool) : (s.setOe v).pending = s.pending := rfl
@[simp] theorem State.setOe_phase (v : Bool) : (s.setOe v).phase = s.phase := rfl
@[simp] theorem State.setOe_oe (v : Bool) : (s.setOe v).oe = v := rfl
@[simp] theorem State.setOe_latch (v : Bool) : (s.setOe v).latch = s.latch := rfl
@[simp] theorem State.setOe_a (v : Bool) : (s.setOe v).a = s.a := rfl
@[simp] theorem State.setOe_b (v : Bool) : (s.setOe v).b = s.b := rfl
@[simp] theorem State.setOe_trace (v : Bool) : (s.setOe v).trace = s.trace := rfl
@[simp] theorem State.setOe_responses (v : Bool) : (s.setOe v).responses = s.responses := rfl
@[simp] theorem State.setOe_env (v : Bool) : (s.setOe v).env = s.env := rfl
@[simp] theorem State.setOe_fbByte (v : Bool) (j : Nat) : (s.setOe v).fbByte j = s.fbByte j := rfl

@[simp] theorem State.setLatch_params (v : Bool) : (s.setLatch v).params = s.params := rfl
@[simp] theorem State.setLatch_rowsize (v : Bool) : (s.setLatch v).rowsize = s.rowsize := rfl
@[simp] theorem State.setLatch_row1 (v : Bool) : (s.setLatch v).row1 = s.row1 := rfl
@[simp] theorem State.setLatch_row2 (v : Bool) : (s.setLatch v).row2 = s.row2 := rfl
@[simp] theorem State.setLatch_row3 (v : Bool) : (s.setLatch v).row3 = s.row3 := rfl
@[simp] theorem State.setLatch_fbSize (v : Bool) : (s.setLatch v).fbSize = s.fbSize := rfl
@[simp] theorem State.setLatch_fb (v : Bool) : (s.setLatch v).fb = s.fb := rfl
@[simp] theorem State.setLatch_fbDraw (v : Bool) : (s.setLatch v).fbDraw = s.fbDraw := rfl
@[simp] theorem State.setLatch_seq (v : Bool) : (s.setLatch v).seq = s.seq := rfl
@[simp] theorem State.setLatch_initDone (v : Bool) : (s.setLatch v).initDone = s.initDone := rfl
@[simp] theorem State.setLatch_pending (v : Bool) : (s.setLatch v).pending = s.pending := rfl
@[simp] theorem State.setLatch_phase (v : Bool) : (s.setLatch v).phase = s.phase := rfl
@[simp] theorem State.setLatch_oe (v : Bool) : (s.setLatch v).oe = s.oe := rfl
@[simp] theorem State.setLatch_latch (v : Bool) : (s.setLatch v).latch = v := rfl
@[simp] theorem State.setLatch_a (v : Bool) : (s.setLatch v).a = s.a := rfl
@[simp] theorem State.setLatch_b (v : Bool) : (s.setLatch v).b = s.b := rfl
@[simp] theorem State.setLatch_trace (v : Bool) : (s.setLatch v).trace = s.trace := rfl
@[simp] theorem State.setLatch_responses (v : Bool) : (s.setLatch v).responses = s.responses := rfl
@[simp] theorem State.setLatch_env (v : Bool) : (s.setLatch v).env = s.env := rfl
@[simp] theorem State.setLatch_fbByte (v : Bool) (j : Nat) : (s.setLatch v).fbByte j = s.fbByte j := rfl

@[simp] theorem State.setA_params (v : Bool) : (s.setA v).params = s.params := rfl
@[simp] theorem State.setA_rowsize (v : Bool) : (s.setA v).rowsize = s.rowsize := rfl
@[simp] theorem State.setA_row1 (v : Bool) : (s.setA v).row1 = s.row1 := rfl
@[simp] theorem State.setA_row2 (v : Bool) : (s.setA v).row2 = s.row2 := rfl
@[simp] theorem State.setA_row3 (v : Bool) : (s.setA v).row3 = s.row3 := rfl
@[simp] theorem State.setA_fbSize (v : Bool) : (s.setA v).fbSize = s.fbSize := rfl
@[simp] theorem State.setA_fb (v : Bool) : (s.setA v).fb = s.fb := rfl
@[simp] theorem State.setA_fbDraw (v : Bool) : (s.setA v).fbDraw = s.fbDraw := rfl
@[simp] theorem State.setA_seq (v : Bool) : (s.setA v).seq = s.seq := rfl
@[simp] theorem State.setA_initDone (v : Bool) : (s.setA v).initDone = s.initDone := rfl
@[simp] theorem State.setA_pending (v : Bool) : (s.setA v).pending = s.pending := rfl
@[simp] theorem State.setA_phase (v : Bool) : (s.setA v).phase = s.phase := rfl
@[simp] theorem State.setA_oe (v : Bool) : (s.setA v).oe = s.oe := rfl
@[simp] theorem State.setA_latch (v : Bool) : (s.setA v).latch = s.latch := rfl
@[simp] theorem State.setA_a (v : Bool) : (s.setA v).a = v := rfl
@[simp] theorem State.setA_b (v : Bool) : (s.setA v).b = s.b := rfl
@[simp] theorem State.setA_trace (v : Bool) : (s.setA v).trace = s.trace := rfl
@[simp] theorem State.setA_responses (v : Bool) : (s.setA v).responses = s.responses := rfl
@[simp] theorem State.setA_env (v : Bool) : (s.setA v).env = s.env := rfl
@[simp] theorem State.setA_fbByte (v : Bool) (j : Nat) : (s.setA v).fbByte j = s.fbByte j := rfl

@[simp] theorem State.setB_params (v : Bool) : (s.setB v).params = s.params := rfl
@[simp] theorem State.setB_rowsize (v : Bool) : (s.setB v).rowsize = s.rowsize := rfl
@[simp] theorem State.setB_row1 (v : Bool) : (s.setB v).row1 = s.row1 := rfl
@[simp] theorem State.setB_row2 (v : Bool) : (s.setB v).row2 = s.row2 := rfl
@[simp] theorem State.setB_row3 (v : Bool) : (s.setB v).row3 = s.row3 := rfl
@[simp] theorem State.setB_fbSize (v : Bool) : (s.setB v).fbSize = s.fbSize := rfl
@[simp] theorem State.setB_fb (v : Bool) : (s.setB v).fb = s.fb := rfl
@[simp] theorem State.setB_fbDraw (v : Bool) : (s.setB v).fbDraw = s.fbDraw := rfl
@[simp] theorem State.setB_seq (v : Bool) : (s.setB v).seq = s.seq := rfl
@[simp] theorem State.setB_initDone (v : Bool) : (s.setB v).initDone = s.initDone := rfl
@[simp] theorem State.setB_pending (v : Bool) : (s.setB v).pending = s.pending := rfl
@[simp] theorem State.setB_phase (v : Bool) : (s.setB v).phase = s.phase := rfl
@[simp] theorem State.setB_oe (v : Bool) : (s.setB v).oe = s.oe := rfl
@[simp] theorem State.setB_latch (v : Bool) : (s.setB v).latch = s.latch := rfl
@[simp] theorem State.setB_a (v : Bool) : (s.setB v).a = s.a := rfl
@[simp] theorem State.setB_b (v : Bool) : (s.setB v).b = v := rfl
@[simp] theorem State.setB_trace (v : Bool) : (s.setB v).trace = s.trace := rfl
@[simp] theorem State.setB_responses (v : Bool) : (s.setB v).responses = s.responses := rfl
@[simp] theorem State.setB_env (v : Bool) : (s.setB v).env = s.env := rfl
@[simp] theorem State.setB_fbByte (v : Bool) (j : Nat) : (s.setB v).fbByte j = s.fbByte j := rfl

@[simp] theorem State.setFb_params (m : List Host.Cell) : (s.setFb m).params = s.params := rfl
@[simp] theorem State.setFb_rowsize (m : List Host.Cell) : (s.setFb m).rowsize = s.rowsize := rfl
@[simp] theorem State.setFb_row1 (m : List Host.Cell) : (s.setFb m).row1 = s.row1 := rfl
@[simp] theorem State.setFb_row2 (m : List Host.Cell) : (s.setFb m).row2 = s.row2 := rfl
@[simp] theorem State.setFb_row3 (m : List Host.Cell) : (s.setFb m).row3 = s.row3 := rfl
@[simp] theorem State.setFb_fbSize (m : List Host.Cell) : (s.setFb m).fbSize = s.fbSize := rfl
@[simp] theorem State.setFb_fb (m : List Host.Cell) : (s.setFb m).fb = m := rfl
@[simp] theorem State.setFb_fbDraw (m : List Host.Cell) : (s.setFb m).fbDraw = s.fbDraw := rfl
@[simp] theorem State.setFb_seq (m : List Host.Cell) : (s.setFb m).seq = s.seq := rfl
@[simp] theorem State.setFb_initDone (m : List Host.Cell) : (s.setFb m).initDone = s.initDone := rfl
@[simp] theorem State.setFb_pending (m : List Host.Cell) : (s.setFb m).pending = s.pending := rfl
@[simp] theorem State.setFb_phase (m : List Host.Cell) : (s.setFb m).phase = s.phase := rfl
@[simp] theorem State.setFb_oe (m : List Host.Cell) : (s.setFb m).oe = s.oe := rfl
@[simp] theorem State.setFb_latch (m : List Host.Cell) : (s.setFb m).latch = s.latch := rfl
@[simp] theorem State.setFb_a (m : List Host.Cell) : (s.setFb m).a = s.a := rfl
@[simp] theorem State.setFb_b (m : List Host.Cell) : (s.setFb m).b = s.b := rfl
@[simp] theorem State.setFb_trace (m : List Host.Cell) : (s.setFb m).trace = s.trace := rfl
@[simp] theorem State.setFb_responses (m : List Host.Cell) : (s.setFb m).responses = s.responses := rfl
@[simp] theorem State.setFb_env (m : List Host.Cell) : (s.setFb m).env = s.env := rfl

@[simp] theorem State.setEnv_params (e : Env) : (s.setEnv e).params = s.params := rfl
@[simp] theorem State.setEnv_rowsize (e : Env) : (s.setEnv e).rowsize = s.rowsize := rfl
@[simp] theorem State.setEnv_row1 (e : Env) : (s.setEnv e).row1 = s.row1 := rfl
@[simp] theorem State.setEnv_row2 (e : Env) : (s.setEnv e).row2 = s.row2 := rfl
@[simp] theorem State.setEnv_row3 (e : Env) : (s.setEnv e).row3 = s.row3 := rfl
@[simp] theorem State.setEnv_fbSize (e : Env) : (s.setEnv e).fbSize = s.fbSize := rfl
@[simp] theorem State.setEnv_fb (e : Env) : (s.setEnv e).fb = s.fb := rfl
@[simp] theorem State.setEnv_fbDraw (e : Env) : (s.setEnv e).fbDraw = s.fbDraw := rfl
@[simp] theorem State.setEnv_seq (e : Env) : (s.setEnv e).seq = s.seq := rfl
@[simp] theorem State.setEnv_initDone (e : Env) : (s.setEnv e).initDone = s.initDone := rfl
@[simp] theorem State.setEnv_pending (e : Env) : (s.setEnv e).pending = s.pending := rfl
@[simp] theorem State.setEnv_phase (e : Env) : (s.setEnv e).phase = s.phase := rfl
@[simp] theorem State.setEnv_oe (e : Env) : (s.setEnv e).oe = s.oe := rfl
@[simp] theorem State.setEnv_latch (e : Env) : (s.setEnv e).latch = s.latch := rfl
@[simp] theorem State.setEnv_a (e : Env) : (s.setEnv e).a = s.a := rfl
@[simp] theorem State.setEnv_b (e : Env) : (s.setEnv e).b = s.b := rfl
@[simp] theorem State.setEnv_trace (e : Env) : (s.setEnv e).trace = s.trace := rfl
@[simp] theorem State.setEnv_responses (e : Env) : (s.setEnv e).responses = s.responses := rfl
@[simp] theorem State.setEnv_env (e : Env) : (s.setEnv e).env = e := rfl
@[simp] theorem State.setEnv_fbByte (e : Env) (j : Nat) : (s.setEnv e).fbByte j = s.fbByte j := rfl

@[simp] theorem State.emit_params (e : Event) : (s.emit e).params = s.params := rfl
@[simp] theorem State.emit_rowsize (e : Event) : (s.emit e).rowsize = s.rowsize := rfl
@[simp] theorem State.emit_row1 (e : Event) : (s.emit e).row1 = s.row1 := rfl
@[simp] theorem State.emit_row2 (e : Event) : (s.emit e).row2 = s.row2 := rfl
@[simp] theorem State.emit_row3 (e : Event) : (s.emit e).row3 = s.row3 := rfl
@[simp] theorem State.emit_fbSize (e : Event) : (s.emit e).fbSize = s.fbSize := rfl
@[simp] theorem State.emit_fb (e : Event) : (s.emit e).fb = s.fb := rfl
@[simp] theorem State.emit_fbDraw (e : Event) : (s.emit e).fbDraw = s.fbDraw := rfl
@[simp] theorem State.emit_seq (e : Event) : (s.emit e).seq = s.seq := rfl
@[simp] theorem State.emit_initDone (e : Event) : (s.emit e).initDone = s.initDone := rfl
@[simp] theorem State.emit_pending (e : Event) : (s.emit e).pending = s.pending := rfl
@[simp] theorem State.emit_phase (e : Event) : (s.emit e).phase = s.phase := rfl
@[simp] theorem State.emit_oe (e : Event) : (s.emit e).oe = s.oe := rfl
@[simp] theorem State.emit_latch (e : Event) : (s.emit e).latch = s.latch := rfl
@[simp] theorem State.emit_a (e : Event) : (s.emit e).a = s.a := rfl
@[simp] theorem State.emit_b (e : Event) : (s.emit e).b = s.b := rfl
@[simp] theorem State.emit_trace (e : Event) : (s.emit e).trace = s.trace ++ [e] := rfl
@[simp] theorem State.emit_responses (e : Event) : (s.emit e).responses = s.responses := rfl
@[simp] theorem State.emit_env (e : Event) : (s.emit e).env = s.env := rfl
@[simp] theorem State.emit_fbByte (e : Event) (j : Nat) : (s.emit e).fbByte j = s.fbByte j := rfl

@[simp] theorem State.respond_params (st : Status) (v : Bool) : (s.respond st v).params = s.params := rfl
@[simp] theorem State.respond_rowsize (st : Status) (v : Bool) : (s.respond st v).rowsize = s.rowsize := rfl
@[simp] theorem State.respond_row1 (st : Status) (v : Bool) : (s.respond st v).row1 = s.row1 := rfl
@[simp] theorem State.respond_row2 (st : Status) (v : Bool) : (s.respond st v).row2 = s.row2 := rfl
@[simp] theorem State.respond_row3 (st : Status) (v : Bool) : (s.respond st v).row3 = s.row3 := rfl
@[simp] theorem State.respond_fbSize (st : Status) (v : Bool) : (s.respond st v).fbSize = s.fbSize := rfl
@[simp] theorem State.respond_fb (st : Status) (v : Bool) : (s.respond st v).fb = s.fb := rfl
@[simp] theorem State.respond_fbDraw (st : Status) (v : Bool) : (s.respond st v).fbDraw = s.fbDraw := rfl
@[simp] theorem State.respond_seq (st : Status) (v : Bool) : (s.respond st v).seq = s.seq := rfl
@[simp] theorem State.respond_initDone (st : Status) (v : Bool) : (s.respond st v).initDone = s.initDone := rfl
@[simp] theorem State.respond_pending (st : Status) (v : Bool) : (s.respond st v).pending = s.pending := rfl
@[simp] theorem State.respond_phase (st : Status) (v : Bool) : (s.respond st v).phase = s.phase := rfl
@[simp] theorem State.respond_oe (st : Status) (v : Bool) : (s.respond st v).oe = s.oe := rfl
@[simp] theorem State.respond_latch (st : Status) (v : Bool) : (s.respond st v).latch = s.latch := rfl
@[simp] theorem State.respond_a (st : Status) (v : Bool) : (s.respond st v).a = s.a := rfl
@[simp] theorem State.respond_b (st : Status) (v : Bool) : (s.respond st v).b = s.b := rfl
@[simp] theorem State.respond_trace (st : Status) (v : Bool) : (s.respond st v).trace = s.trace := rfl
@[simp] theorem State.respond_responses (st : Status) (v : Bool) : (s.respond st v).responses = s.responses ++ [responseWord st v] := rfl
@[simp] theorem State.respond_env (st : Status) (v : Bool) : (s.respond st v).env = s.env := rfl
@[simp] theorem State.respond_fbByte (st : Status) (v : Bool) (j : Nat) : (s.respond st v).fbByte j = s.fbByte j := rfl

end Sys2Proof.Machine
end

