-- ==== Sys2Proof/Laws/Memory.lean ====
section
/-! SUPPORT. The frame buffer as a list: read after write, the canonical form, and what the two memory primitives do. -/

namespace Sys2Proof.Machine

theorem Memory.lookup_write_same (m : List Host.Cell) (j : Nat) (v : Byte) :
    Memory.lookup (Memory.write m j v) j = some v := by
  induction m with
  | nil => simp [Memory.write, Memory.lookup]
  | cons c m ih =>
    obtain ⟨i, u⟩ := c
    by_cases h₁ : j < i
    · simp [Memory.write, Memory.lookup, h₁]
    · by_cases h₂ : j = i
      · simp [Memory.write, Memory.lookup, h₂]
      · simp [Memory.write, Memory.lookup, h₁, h₂, Ne.symm h₂, ih]

theorem Memory.lookup_write_other (m : List Host.Cell) {j k : Nat} (v : Byte) (h : k ≠ j) :
    Memory.lookup (Memory.write m j v) k = Memory.lookup m k := by
  induction m with
  | nil => simp [Memory.write, Memory.lookup, Ne.symm h]
  | cons c m ih =>
    obtain ⟨i, u⟩ := c
    by_cases h₁ : j < i
    · simp [Memory.write, Memory.lookup, h₁, Ne.symm h]
    · by_cases h₂ : j = i
      · subst h₂
        simp [Memory.write, Memory.lookup, Ne.symm h]
      · simp [Memory.write, Memory.lookup, h₁, h₂, ih]

/-- A written cell is the new one or an old one. -/
theorem Memory.mem_write {m : List Host.Cell} {j : Nat} {v : Byte} {c : Host.Cell} (h : c ∈ Memory.write m j v) :
    c = (j, v) ∨ c ∈ m := by
  induction m with
  | nil => simpa [Memory.write] using h
  | cons d m ih =>
    obtain ⟨i, u⟩ := d
    by_cases h₁ : j < i
    · simpa [Memory.write, h₁] using h
    · by_cases h₂ : j = i
      · subst h₂
        simp only [Memory.write, Nat.lt_irrefl, if_false, if_true, List.mem_cons] at h
        rcases h with h | h
        · exact .inl h
        · exact .inr (List.mem_cons_of_mem _ h)
      · simp only [Memory.write, h₁, h₂, if_false, List.mem_cons] at h
        rcases h with h | h
        · exact .inr (by simp [h])
        · exact (ih h).imp id (List.mem_cons_of_mem _)

/-- Every write keeps the canonical form. -/
theorem Memory.wf_write {m : List Host.Cell} (j : Nat) (v : Byte) (h : Memory.wf m) : Memory.wf (Memory.write m j v) := by
  induction m with
  | nil => simp [Memory.write]
  | cons d m ih =>
    obtain ⟨i, u⟩ := d
    obtain ⟨hd, hm⟩ := List.pairwise_cons.mp h
    by_cases h₁ : j < i
    · simp only [Memory.write, h₁, if_true]
      refine List.pairwise_cons.mpr ⟨fun c hc => ?_, h⟩
      rcases List.mem_cons.mp hc with rfl | hc
      · exact h₁
      · exact Nat.lt_trans h₁ (hd c hc)
    · by_cases h₂ : j = i
      · subst h₂
        simp only [Memory.write, h₁, if_false, if_true]
        exact List.pairwise_cons.mpr ⟨hd, hm⟩
      · simp only [Memory.write, h₁, h₂, if_false]
        refine List.pairwise_cons.mpr ⟨fun c hc => ?_, ih hm⟩
        rcases Memory.mem_write hc with rfl | hc
        · show i < j
          omega
        · exact hd c hc

/-- The frame buffer of a state after reset lists nothing. -/
theorem State.resetWith_fb_wf (c : Params) (n : Nat) (e : Env) : Memory.wf (State.resetWith c n e).fb := List.Pairwise.nil

theorem State.reset_fb_wf : Memory.wf State.reset.fb := List.Pairwise.nil

/-- What a written frame buffer reads as. -/
theorem State.fbByte_write (s : State) (j k : Nat) (v : Byte) :
    (s.setFb (Memory.write s.fb j v)).fbByte k = if k = j then v else s.fbByte k := by
  by_cases h : k = j
  · subst h
    simp [State.fbByte, Memory.lookup_write_same]
  · simp [State.fbByte, Memory.lookup_write_other _ _ h, h]

/-- The byte read depends on the written bytes and on the draw alone. -/
theorem State.fbByte_congr {s t : State} (hm : t.fb = s.fb) (hd : t.fbDraw = s.fbDraw) (j : Nat) :
    t.fbByte j = s.fbByte j := by
  simp [State.fbByte, hm, hd]

/-- All that a read can do. -/
theorem memRead_eq_ok {s : State} {j : Nat} {v : Byte} (h : memRead s j = .ok v) : j < s.fbSize ∧ v = s.fbByte j := by
  unfold memRead at h
  split at h
  · next hj => exact ⟨hj, (Except.ok.inj h).symm⟩
  · cases h

/-- All that a write can do. -/
theorem memWrite_eq_ok {s t : State} {j : Nat} {v : Byte} (h : memWrite s j v = .ok t) :
    j < s.fbSize ∧ t = s.setFb (Memory.write s.fb j v) := by
  unfold memWrite at h
  split at h
  · next hj => exact ⟨hj, (Except.ok.inj h).symm⟩
  · cases h

theorem memRead_of_lt {s : State} {j : Nat} (h : j < s.fbSize) : memRead s j = .ok (s.fbByte j) := by
  simp [memRead, h]

theorem memWrite_of_lt {s : State} {j : Nat} (v : Byte) (h : j < s.fbSize) :
    memWrite s j v = .ok (s.setFb (Memory.write s.fb j v)) := by
  simp [memWrite, h]

end Sys2Proof.Machine
end

