-- ==== Sys2Proof/Laws/Ops.lean ====
section
/-! SUPPORT. One lemma per shared operation that says everything it can do. -/

namespace Sys2Proof.Machine

/-! ### Responses -/

theorem responseWord_ok_on : responseWord .ok true = 0x100#32 := rfl
theorem responseWord_ok_off : responseWord .ok false = 0#32 := rfl
theorem responseWord_outOfRange : responseWord .outOfRange false = 1#32 := rfl
theorem responseWord_illegalCommand : responseWord .illegalCommand false = 2#32 := rfl

/-- Raising an error changes nothing but the response stream, and always goes on. -/
theorem raiseError_eq (e : ErrorCondition) (s : State) : raiseError e s = .next (s.respond (errorStatus e) false) := rfl

/-! ### Flags -/

/-- All that `Finish()` can do. -/
theorem finish_cases (s : State) :
    (s.pending = true ∧ finish s = (s.setPending false).setPhase .check) ∨
      (s.pending = false ∧ finish s = s.setPhase .idle) := by
  unfold finish
  cases h : s.pending
  · exact .inr ⟨rfl, rfl⟩
  · exact .inl ⟨rfl, rfl⟩

/-- All that an overlapping trigger can do. -/
theorem overlapTrigger_cases (s : State) :
    (s.params.overlap = .drop ∧ overlapTrigger s = s) ∨
      (s.params.overlap = .queue1 ∧ overlapTrigger s = s.setPending true) := by
  unfold overlapTrigger
  cases h : s.params.overlap
  · exact .inl ⟨rfl, rfl⟩
  · exact .inr ⟨rfl, rfl⟩

/-- Where a passed check can go. -/
theorem afterCheck_cases (s : State) :
    (s.initDone = true ∧ afterCheck s = s.setPhase (.shift 0 0)) ∨
      (s.initDone = false ∧ afterCheck s = s.setPhase .cfgFreq) := by
  unfold afterCheck
  cases h : s.initDone
  · exact .inr ⟨rfl, rfl⟩
  · exact .inl ⟨rfl, rfl⟩

/-! ### The environment -/

/-- The busy draw takes something from the environment, never a word or a turn, and changes nothing of the block. -/
theorem busyTaken_spec (s : State) :
    ∃ e : Env, busyTaken s = s.setEnv e ∧ e.commands = s.env.commands ∧ e.turns = s.env.turns := by
  unfold busyTaken
  split
  · split
    · exact ⟨_, rfl, rfl, rfl⟩
    · exact ⟨_, rfl, rfl, rfl⟩
  · exact ⟨s.env, rfl, rfl, rfl⟩

/-- A used turn leaves the words and the busy values, and changes nothing of the block. -/
theorem useTurn_spec (s : State) :
    ∃ e : Env, useTurn s = s.setEnv e ∧ e.commands = s.env.commands ∧ e.busyIn = s.env.busyIn ∧
      e.turns = s.env.turns.tail := by
  unfold useTurn
  split
  · next h => exact ⟨_, rfl, rfl, rfl, by simp [h]⟩
  · next h => exact ⟨_, rfl, rfl, rfl, by simp [h]⟩

/-- All that can be chosen when the turn is no reset. -/
theorem agentMove_cases (s : State) :
    (agentMove s = .wait ∧ s.env.commands = [] ∧ s.phase = .idle) ∨
      (∃ w rest, agentMove s = .port w ∧ s.env.commands = w :: rest) ∨
      (agentMove s = .engine ∧ s.phase ≠ .idle) := by
  unfold agentMove
  split
  · next h₁ h₂ => exact .inl ⟨rfl, h₁, h₂⟩
  · next w rest h₁ h₂ => exact .inr (.inl ⟨w, rest, rfl, h₁⟩)
  · next h₁ h₂ => exact .inr (.inr ⟨rfl, h₂⟩)
  · next w rest h₁ h₂ =>
    split
    · exact .inr (.inl ⟨w, rest, rfl, h₁⟩)
    · exact .inr (.inr ⟨rfl, h₂⟩)

/-- All that the next machine step can be: what is chosen is enabled. -/
theorem nextMove_cases (s : State) :
    (nextMove s = .wait ∧ s.env.commands = [] ∧ s.phase = .idle) ∨
      (∃ w rest, nextMove s = .port w ∧ s.env.commands = w :: rest) ∨
      (nextMove s = .engine ∧ s.phase ≠ .idle) ∨
      (∃ c rest, nextMove s = .reset c ∧ s.env.turns = .reset c :: rest) := by
  unfold nextMove
  split
  · next c rest h => exact .inr (.inr (.inr ⟨c, rest, rfl, h⟩))
  · rcases agentMove_cases s with h | h | h
    · exact .inl h
    · exact .inr (.inl h)
    · exact .inr (.inr (.inl h))

/-! ### Reset -/

/-- All that a reset step can do. -/
theorem applyReset_cases (c : Params) (s : State) :
    (1 ≤ c.panels ∧ c.panels ≤ 256 ∧ applyReset c s = .next (State.resetWith c (s.fbDraw + 1) s.env)) ∨
      (¬(1 ≤ c.panels ∧ c.panels ≤ 256) ∧ applyReset c s = .refused (.badConfiguration c.panels)) := by
  unfold applyReset panelsLegal
  by_cases h : 1 ≤ c.panels ∧ c.panels ≤ 256
  · exact .inl ⟨h.1, h.2, by simp [h.1, h.2]⟩
  · refine .inr ⟨h, ?_⟩
    have : (decide (1 ≤ c.panels) && decide (c.panels ≤ 256)) = false := by simpa using h
    simp [this]

/-! ### The RowSequencer -/

theorem advanceSeq_eq (s : State) : advanceSeq s = (s.setSeq (s.seq + 1#2), rowSelect (s.seq + 1#2)) := rfl

end Sys2Proof.Machine
end

