-- ==== Sys2Proof/Laws/Commands.lean ====
section
/-! SUPPORT. What each command's meaning and each word on the port can do. -/

namespace Sys2Proof.Machine

/-- All that REFRESH can do. -/
theorem execRefresh_cases (s : State) :
    (s.phase = .idle ∧ execRefresh s = .next (s.setPhase .check)) ∨
      (s.phase ≠ .idle ∧ execRefresh s = .next (overlapTrigger s)) := by
  unfold execRefresh
  by_cases h : s.phase = .idle
  · exact .inl ⟨h, by simp [h]⟩
  · exact .inr ⟨h, by simp [h]⟩

/-- All that SETPIXEL can do when it goes on. -/
theorem execSetPixel_next {p x y : Nat} {on : Bool} {s t : State} (h : execSetPixel p x y on s = .next t) :
    (inRange s p x y = true ∧ pixelIndex s p x y < s.fbSize ∧
      t = (s.setFb (Memory.write s.fb (pixelIndex s p x y)
        (withPixel (s.fbByte (pixelIndex s p x y)) x on))).respond .ok false) ∨
      (inRange s p x y = false ∧ t = s.respond .outOfRange false) := by
  unfold execSetPixel at h
  split at h
  · next hr =>
    split at h
    · cases h
    · next old hold =>
      obtain ⟨hj, rfl⟩ := memRead_eq_ok hold
      split at h
      · cases h
      · next u hu =>
        obtain ⟨-, rfl⟩ := memWrite_eq_ok hu
        exact .inl ⟨hr, hj, (Host.Outcome.next.inj h).symm⟩
  · next hr => exact .inr ⟨by simpa using hr, (Host.Outcome.next.inj h).symm⟩

/-- All that GETPIXEL can do when it goes on. -/
theorem execGetPixel_next {p x y : Nat} {s t : State} (h : execGetPixel p x y s = .next t) :
    (inRange s p x y = true ∧ pixelIndex s p x y < s.fbSize ∧
      t = s.respond .ok (pixelOf (s.fbByte (pixelIndex s p x y)) x)) ∨
      (inRange s p x y = false ∧ t = s.respond .outOfRange false) := by
  unfold execGetPixel at h
  split at h
  · next hr =>
    split at h
    · cases h
    · next v hv =>
      obtain ⟨hj, rfl⟩ := memRead_eq_ok hv
      exact .inl ⟨hr, hj, (Host.Outcome.next.inj h).symm⟩
  · next hr => exact .inr ⟨by simpa using hr, (Host.Outcome.next.inj h).symm⟩

theorem execSetPixel_outOfRange {p x y : Nat} {s : State} (on : Bool) (h : inRange s p x y = false) :
    execSetPixel p x y on s = .next (s.respond .outOfRange false) := by
  simp [execSetPixel, h, raiseError, errorStatus]

theorem execGetPixel_outOfRange {p x y : Nat} {s : State} (h : inRange s p x y = false) :
    execGetPixel p x y s = .next (s.respond .outOfRange false) := by
  simp [execGetPixel, h, raiseError, errorStatus]

theorem execSetPixel_inRange {p x y : Nat} {s : State} (on : Bool) (h : inRange s p x y = true)
    (hj : pixelIndex s p x y < s.fbSize) :
    execSetPixel p x y on s = .next ((s.setFb (Memory.write s.fb (pixelIndex s p x y)
      (withPixel (s.fbByte (pixelIndex s p x y)) x on))).respond .ok false) := by
  simp [execSetPixel, h, memRead_of_lt hj, memWrite_of_lt _ hj]

theorem execGetPixel_inRange {p x y : Nat} {s : State} (h : inRange s p x y = true)
    (hj : pixelIndex s p x y < s.fbSize) :
    execGetPixel p x y s = .next (s.respond .ok (pixelOf (s.fbByte (pixelIndex s p x y)) x)) := by
  simp [execGetPixel, h, memRead_of_lt hj]

/-- All that a word on the port can do. -/
theorem runWord_cases (w : Word) (s : State) :
    (∃ r, decode w = .error r ∧ runWord w s = .next (s.respond .illegalCommand false)) ∨
      (∃ i, decode w = .ok i ∧ runWord w s = exec i s) := by
  unfold runWord
  split
  · next r h => exact .inl ⟨r, h, rfl⟩
  · next i h => exact .inr ⟨i, h, rfl⟩

end Sys2Proof.Machine
end

