-- ==== Sys2Proof/Laws/Decode.lean ====
section
/-! SUPPORT. What the decoder can answer, and the fields of a packed word. -/

namespace Sys2Proof

/-- All that decoding can answer when the word is legal. -/
theorem decode_ok_cases {w : Word} {i : Instr} (h : decode w = .ok i) :
    (opField w = 1#4 ∧ w.extractLsb' 0 28 = 0#28 ∧ i = .refresh) ∨
      (opField w = 2#4 ∧ rsvField w = 0#3 ∧ i = .setPixel (panelField w) (xField w) (yField w) (onField w)) ∨
      (opField w = 3#4 ∧ w.extractLsb' 24 4 = 0#4 ∧ i = .getPixel (panelField w) (xField w) (yField w)) := by
  unfold decode at h
  split at h
  · next ho =>
    unfold decodeRefresh at h
    split at h
    · next hz => exact .inl ⟨ho, hz, (Except.ok.inj h).symm⟩
    · cases h
  · split at h
    · next ho =>
      unfold decodeSetPixel at h
      split at h
      · next hz => exact .inr (.inl ⟨ho, hz, (Except.ok.inj h).symm⟩)
      · cases h
    · split at h
      · next ho =>
        unfold decodeGetPixel at h
        split at h
        · next hz => exact .inr (.inr ⟨ho, hz, (Except.ok.inj h).symm⟩)
        · cases h
      · cases h

theorem opField_packWord (op : BitVec 4) (on : Bool) (p x y : Nat) : opField (packWord op on p x y) = op := by
  ext i hi
  simp only [opField, packWord, BitVec.getElem_extractLsb', BitVec.getLsbD_append]
  have : 28 + i - 8 - 8 - 8 - 1 - 3 = i := by omega
  simp [show ¬ 28 + i < 8 by omega, show ¬ 28 + i - 8 < 8 by omega, show ¬ 28 + i - 8 - 8 < 8 by omega,
    show ¬ 28 + i - 8 - 8 - 8 < 1 by omega, show ¬ 28 + i - 8 - 8 - 8 - 1 < 3 by omega, this,
    BitVec.getLsbD_eq_getElem hi]

/-! ### Fields as numbers -/

/-- A field of a word is a quotient and a remainder of it. -/
theorem extractField_toNat (w : Word) (lo len : Nat) : (w.extractLsb' lo len).toNat = w.toNat / 2 ^ lo % 2 ^ len := by
  rw [BitVec.extractLsb'_toNat, Nat.shiftRight_eq_div_pow]

theorem panelField_eq (w : Word) : panelField w = w.toNat / 2 ^ 16 % 2 ^ 8 := extractField_toNat w 16 8

theorem xField_eq (w : Word) : xField w = w.toNat / 2 ^ 8 % 2 ^ 8 := extractField_toNat w 8 8

theorem yField_eq (w : Word) : yField w = w.toNat % 2 ^ 8 := by
  rw [yField, extractField_toNat, Nat.pow_zero, Nat.div_one]

theorem onField_toNat (w : Word) : (onField w).toNat = w.toNat / 2 ^ 24 % 2 := by
  rw [onField, BitVec.getLsbD, Nat.testBit_eq_decide_div_mod_eq]
  rcases Nat.mod_two_eq_zero_or_one (w.toNat / 2 ^ 24) with h | h <;> rw [h] <;> rfl

theorem opField_toNat (w : Word) : (opField w).toNat = w.toNat / 2 ^ 28 := by
  have := w.isLt
  rw [opField, extractField_toNat]
  omega

/-- A packed word as a number. -/
theorem packWord_toNat (op : BitVec 4) (on : Bool) (p x y : Nat) :
    (packWord op on p x y).toNat =
      op.toNat * 2 ^ 28 + on.toNat * 2 ^ 24 + p % 256 * 2 ^ 16 + x % 256 * 2 ^ 8 + y % 256 := by
  have hb : (BitVec.ofBool on).toNat = on.toNat := by cases on <;> rfl
  have hon : on.toNat ≤ 1 := by cases on <;> decide
  have join : ∀ a b i : Nat, b < 2 ^ i → a * 2 ^ i ||| b = a * 2 ^ i + b := fun a b i h => by
    rw [Nat.mul_comm, ← Nat.two_pow_add_eq_or_of_lt h]
  simp only [packWord, BitVec.toNat_append, hb, BitVec.toNat_ofNat, Nat.shiftLeft_eq]
  rw [join _ (0 % 2 ^ 3) 3 (by omega), join _ on.toNat 1 (by omega), join _ (p % 2 ^ 8) 8 (by omega),
    join _ (x % 2 ^ 8) 8 (by omega), join _ (y % 2 ^ 8) 8 (by omega)]
  omega

end Sys2Proof
end

