-- ==== Sys2Proof/Laws/PerInstr.lean ====
section
/-! SUPPORT. The family OpcodeField: the OP field of a command's word is the command's own (30_encoding.md R71). -/

namespace Sys2Proof.Laws.OpcodeField

/-- The OP field of the word is the opcode of R71. -/
def Statement (i : Instr) : Prop := opField (encode i) = i.op

theorem refresh : Statement .refresh := opField_packWord _ _ _ _ _

theorem setPixel (p x y : Nat) (on : Bool) : Statement (.setPixel p x y on) := opField_packWord _ _ _ _ _

theorem getPixel (p x y : Nat) : Statement (.getPixel p x y) := opField_packWord _ _ _ _ _

end Sys2Proof.Laws.OpcodeField
end

