-- ==== Sys2Proof/Laws/Pixels.lean ====
section
/-! SUPPORT. The pixel operations bit by bit, and the range check as a proposition. -/

namespace Sys2Proof.Machine

theorem inRange_iff (s : State) (p x y : Nat) :
    inRange s p x y = true ↔ x < 32 ∧ y < 16 ∧ p < s.params.panels := by
  rw [inRange, panelW, panelH, Bool.and_eq_true, Bool.and_eq_true, decide_eq_true_iff, decide_eq_true_iff,
    decide_eq_true_iff, and_assoc]

/-- The pixel of a byte is one bit of it. -/
theorem pixelOf_eq_bit (v : Byte) (x : Nat) : pixelOf v x = v.getLsbD (7 - x % 8) := by
  have hx : x % 8 < 8 := Nat.mod_lt _ (by omega)
  unfold pixelOf maskOf
  generalize x % 8 = n at *
  have table : ∀ n < 8, ∀ v : Byte, decide (v &&& mask n ≠ 0#8) = v.getLsbD (7 - n) := by decide
  exact table n hx v

/-- Writing a pixel sets its bit and keeps the other seven. -/
theorem withPixel_bit (v : Byte) (x b : Nat) (on : Bool) (hb : b < 8) :
    (withPixel v x on).getLsbD b = if b = 7 - x % 8 then on else v.getLsbD b := by
  have hx : x % 8 < 8 := Nat.mod_lt _ (by omega)
  have table : ∀ n < 8, ∀ b < 8, (mask n).getLsbD b = decide (b = 7 - n) := by decide
  have hm : (maskOf x).getLsbD b = decide (b = 7 - x % 8) := table _ hx b hb
  cases on
  · simp only [withPixel, Bool.false_eq_true, if_false, BitVec.getLsbD_and, BitVec.getLsbD_not, hm]
    by_cases h : b = 7 - x % 8 <;> simp [h, hb]
  · simp only [withPixel, if_true, BitVec.getLsbD_or, hm]
    by_cases h : b = 7 - x % 8 <;> simp [h]

end Sys2Proof.Machine
end

