-- ==== Sys2Proof/Laws/Step.lean ====
section
/-! SUPPORT. Each ScanEngine micro-step as one equation, and what a machine step can do. -/

namespace Sys2Proof.Machine

variable {s : State}

theorem microStep_idle (h : s.phase = .idle) : microStep s = .next s := by simp [microStep, h]

/-- CHECK skips or goes on (R143). -/
theorem microStep_check (h : s.phase = .check) :
    microStep s = .next (if busyValue s then finish (busyTaken s) else afterCheck (busyTaken s)) := by
  simp [microStep, h, microCheck]

theorem microStep_cfgFreq (h : s.phase = .cfgFreq) :
    microStep s = .next ((s.emit (.cfgFreq s.params.spiClock)).setPhase .cfgMode) := by
  simp [microStep, h, microCfgFreq]

theorem microStep_cfgMode (h : s.phase = .cfgMode) :
    microStep s = .next (((s.emit (.cfgMode s.params.spiMode)).setInitDone true).setPhase (.shift 0 0)) := by
  simp [microStep, h, microCfgMode]

theorem microStep_shift {i : Nat} {k : Fin 4} (h : s.phase = .shift i k) (hj : shiftIndex s i k < s.fbSize) :
    microStep s =
      .next ((s.emit (.byte (s.fbByte (shiftIndex s i k)))).setPhase (nextShift s.rowsize i k)) := by
  simp [microStep, h, microShift, memRead_of_lt hj]

theorem microShift_next {i : Nat} {k : Fin 4} {t : State} (h : microShift i k s = .next t) :
    shiftIndex s i k < s.fbSize ∧
      t = (s.emit (.byte (s.fbByte (shiftIndex s i k)))).setPhase (nextShift s.rowsize i k) := by
  unfold microShift at h
  split at h
  · cases h
  · next v hv =>
    obtain ⟨hj, rfl⟩ := memRead_eq_ok hv
    exact ⟨hj, (Host.Outcome.next.inj h).symm⟩

theorem microStep_oeOff (h : s.phase = .oeOff) :
    microStep s = .next (((s.setOe false).emit (.pin .oe false)).setPhase .latchHi) := by
  simp [microStep, h, microOeOff]

theorem microStep_latchHi (h : s.phase = .latchHi) :
    microStep s = .next (((s.setLatch true).emit (.pin .lat true)).setPhase .latchLo) := by
  simp [microStep, h, microLatchHi]

theorem microStep_latchLo (h : s.phase = .latchLo) :
    microStep s = .next (((s.setLatch false).emit (.pin .lat false)).setPhase .rowA) := by
  simp [microStep, h, microLatchLo]

theorem microStep_rowA (h : s.phase = .rowA) :
    microStep s = .next (((s.setA (s.seq.getLsbD 0)).emit (.pin .a (s.seq.getLsbD 0))).setPhase .rowB) := by
  simp [microStep, h, microRowA, rowSelect]

theorem microStep_rowB (h : s.phase = .rowB) :
    microStep s = .next (((s.setB (s.seq.getLsbD 1)).emit (.pin .b (s.seq.getLsbD 1))).setPhase .advance) := by
  simp [microStep, h, microRowB, rowSelect]

theorem microStep_advance (h : s.phase = .advance) :
    microStep s = .next ((s.setSeq (s.seq + 1#2)).setPhase .oeOn) := by
  simp [microStep, h, microAdvance, advanceSeq, nextGroup]

theorem microStep_oeOn (h : s.phase = .oeOn) :
    microStep s = .next (finish ((s.setOe true).emit (.pin .oe true))) := by
  simp [microStep, h, microOeOn]

/-- All that a micro-step can do, by the phase it runs in. -/
theorem microStep_next_cases {t : State} (h : microStep s = .next t) :
    (s.phase = .idle ∧ t = s) ∨
    (s.phase = .check ∧ t = if busyValue s then finish (busyTaken s) else afterCheck (busyTaken s)) ∨
    (s.phase = .cfgFreq ∧ t = (s.emit (.cfgFreq s.params.spiClock)).setPhase .cfgMode) ∨
    (s.phase = .cfgMode ∧ t = ((s.emit (.cfgMode s.params.spiMode)).setInitDone true).setPhase (.shift 0 0)) ∨
    (∃ i k, s.phase = .shift i k ∧ shiftIndex s i k < s.fbSize ∧
      t = (s.emit (.byte (s.fbByte (shiftIndex s i k)))).setPhase (nextShift s.rowsize i k)) ∨
    (s.phase = .oeOff ∧ t = ((s.setOe false).emit (.pin .oe false)).setPhase .latchHi) ∨
    (s.phase = .latchHi ∧ t = ((s.setLatch true).emit (.pin .lat true)).setPhase .latchLo) ∨
    (s.phase = .latchLo ∧ t = ((s.setLatch false).emit (.pin .lat false)).setPhase .rowA) ∨
    (s.phase = .rowA ∧ t = ((s.setA (s.seq.getLsbD 0)).emit (.pin .a (s.seq.getLsbD 0))).setPhase .rowB) ∨
    (s.phase = .rowB ∧ t = ((s.setB (s.seq.getLsbD 1)).emit (.pin .b (s.seq.getLsbD 1))).setPhase .advance) ∨
    (s.phase = .advance ∧ t = (s.setSeq (s.seq + 1#2)).setPhase .oeOn) ∨
    (s.phase = .oeOn ∧ t = finish ((s.setOe true).emit (.pin .oe true))) := by
  cases hp : s.phase with
  | idle =>
    rw [microStep_idle hp] at h
    exact .inl ⟨rfl, (Host.Outcome.next.inj h).symm⟩
  | check =>
    rw [microStep_check hp] at h
    exact .inr (.inl ⟨rfl, (Host.Outcome.next.inj h).symm⟩)
  | cfgFreq => rw [microStep_cfgFreq hp] at h; cases h; simp
  | cfgMode => rw [microStep_cfgMode hp] at h; cases h; simp
  | shift i k =>
    have hs : microStep s = microShift i k s := by simp [microStep, hp]
    rw [hs] at h
    obtain ⟨hj, ht⟩ := microShift_next h
    exact .inr (.inr (.inr (.inr (.inl ⟨i, k, rfl, hj, ht⟩))))
  | oeOff => rw [microStep_oeOff hp] at h; cases h; simp
  | latchHi => rw [microStep_latchHi hp] at h; cases h; simp
  | latchLo => rw [microStep_latchLo hp] at h; cases h; simp
  | rowA => rw [microStep_rowA hp] at h; cases h; simp
  | rowB => rw [microStep_rowB hp] at h; cases h; simp
  | advance => rw [microStep_advance hp] at h; cases h; simp
  | oeOn => rw [microStep_oeOn hp] at h; cases h; simp

/-! ### The machine step -/

theorem step_wait (h : nextMove s = .wait) : step s = .next (useTurn s) := by simp [step, h]

theorem step_port {w : Word} (h : nextMove s = .port w) : step s = runWord w (takeWord (useTurn s)) := by simp [step, h]

theorem step_engine (h : nextMove s = .engine) : step s = microStep (useTurn s) := by simp [step, h]

theorem step_reset {c : Params} (h : nextMove s = .reset c) : step s = applyReset c (useTurn s) := by simp [step, h]

/-- All that a step can do, by the agent that takes it. -/
theorem step_next_cases {t : State} (h : step s = .next t) :
    (s.phase = .idle ∧ s.env.commands = [] ∧ t = useTurn s) ∨
      (∃ w rest, nextMove s = .port w ∧ s.env.commands = w :: rest ∧ runWord w (takeWord (useTurn s)) = .next t) ∨
      (nextMove s = .engine ∧ s.phase ≠ .idle ∧ microStep (useTurn s) = .next t) ∨
      (∃ c, nextMove s = .reset c ∧ 1 ≤ c.panels ∧ c.panels ≤ 256 ∧
        t = State.resetWith c ((useTurn s).fbDraw + 1) (useTurn s).env) := by
  rcases nextMove_cases s with ⟨hm, hc, hp⟩ | ⟨w, rest, hm, hc⟩ | ⟨hm, hp⟩ | ⟨c, rest, hm, hc⟩
  · rw [step_wait hm] at h
    exact .inl ⟨hp, hc, (Host.Outcome.next.inj h).symm⟩
  · rw [step_port hm] at h
    exact .inr (.inl ⟨w, rest, hm, hc, h⟩)
  · rw [step_engine hm] at h
    exact .inr (.inr (.inl ⟨hm, hp, h⟩))
  · rw [step_reset hm] at h
    rcases applyReset_cases c (useTurn s) with ⟨h₁, h₂, h₃⟩ | ⟨-, h₃⟩
    · rw [h₃] at h
      exact .inr (.inr (.inr ⟨c, hm, h₁, h₂, (Host.Outcome.next.inj h).symm⟩))
    · rw [h₃] at h
      cases h

end Sys2Proof.Machine
end

