-- ==== Sys2Proof/Laws/Run.lean ====
section
/-! SUPPORT. Runs of several steps of the machine: one step at a time, one run after another, and the host's run. -/

namespace Sys2Proof.Safety

open Sys2Proof.Machine

/-- A run whose first step goes on is the rest of the run from there. -/
theorem runSteps_of_step {s t : State} (n : Nat) (h : step s = .next t) : runSteps (n + 1) s = runSteps n t := by
  simp [runSteps, h]

/-- A run that goes on can be cut in two. -/
theorem runSteps_add {m : Nat} (n : Nat) {s t : State} (h : runSteps m s = .next t) :
    runSteps (m + n) s = runSteps n t := by
  induction m generalizing s with
  | zero =>
    cases h
    rw [Nat.zero_add]
  | succ m ih =>
    rw [Nat.succ_add]
    simp only [runSteps] at h ⊢
    split at h
    · exact ih h
    · cases h
    · cases h

/-- The host's run from a state whose step goes on. -/
theorem core_run_next (M : Host.Core) (n : Nat) {s t : M.State} (h : M.step s = .next t) : M.run (n + 1) s = M.run n t := by
  simp [Host.Core.run, h]

/-- The host's run from a state whose step faults. -/
theorem core_run_fault (M : Host.Core) (n : Nat) {s : M.State} {r : M.Fault} (h : M.step s = .fault r) :
    M.run (n + 1) s = .fault r := by
  simp [Host.Core.run, h]

/-- The host's run from a state whose step is refused. -/
theorem core_run_refused (M : Host.Core) (n : Nat) {s : M.State} {r : M.Refusal} (h : M.step s = .refused r) :
    M.run (n + 1) s = .refused r := by
  simp [Host.Core.run, h]

/-- The run of the claims is the host's run of the core. -/
theorem runSteps_eq_core_run (n : Nat) (s : State) : runSteps n s = Host.Core.run core n s := by
  induction n generalizing s with
  | zero => rfl
  | succ n ih =>
    cases h : step s with
    | next t => exact (runSteps_of_step n h).trans ((ih t).trans (core_run_next core n h).symm)
    | fault r =>
      have hr : runSteps (n + 1) s = .fault r := by simp [runSteps, h]
      exact hr.trans (core_run_fault core n h).symm
    | refused r =>
      have hr : runSteps (n + 1) s = .refused r := by simp [runSteps, h]
      exact hr.trans (core_run_refused core n h).symm

end Sys2Proof.Safety
end

