-- ==== Sys2Proof/Laws/Text.lean ====
section
/-! SUPPORT. What the assembler's readers can do: digits and numerals, blanks, operands, lines and commands
(30_encoding.md R80). -/

namespace Sys2Proof.Safety

open Sys2Proof.Machine

/-! ### Digits and numerals -/

/-- A digit's value is below 16 and its character at most `f`. -/
theorem digitValue_bounds {c : Char} {d : Nat} (h : digitValue c = some d) : d < 16 ∧ c.toNat < 103 := by
  have le (x y : Char) : x ≤ y ↔ x.toNat ≤ y.toNat := by rw [Char.le_def, UInt32.le_iff_toNat_le]; rfl
  simp only [digitValue, le, show '0'.toNat = 48 from rfl, show '9'.toNat = 57 from rfl, show 'a'.toNat = 97 from rfl,
    show 'f'.toNat = 102 from rfl, show 'A'.toNat = 65 from rfl, show 'F'.toNat = 70 from rfl] at h
  repeat' split at h
  all_goals cases h
  all_goals omega

/-- The digits by value, each in lower case or in capitals. -/
theorem digitValue_eq_some {c : Char} {d : Nat} :
    digitValue c = some d ↔ d < 16 ∧ c.toLower = Nat.digitChar d := by
  have key : ∀ k < 103, ∀ d < 16, digitValue (Char.ofNat k) = some d ↔ (Char.ofNat k).toLower = Nat.digitChar d := by
    decide
  constructor
  · intro h
    obtain ⟨hd, hc⟩ := digitValue_bounds h
    exact ⟨hd, Char.ofNat_toNat c ▸ (key c.toNat hc d hd).1 (by rwa [Char.ofNat_toNat])⟩
  · rintro ⟨hd, h⟩
    have hc : c.toNat < 103 := by
      by_contra hn
      have hl : c.toLower = c := by
        unfold Char.toLower
        rw [dif_neg]
        rw [ge_iff_le, UInt32.le_iff_toNat_le, UInt32.le_iff_toNat_le]
        change ¬(65 ≤ c.toNat ∧ c.toNat ≤ 90)
        omega
      have : ∀ d < 16, (Nat.digitChar d).toNat < 103 := by decide
      exact hn (hl ▸ h ▸ this d hd)
    exact Char.ofNat_toNat c ▸ (key c.toNat hc d hd).2 (by rwa [Char.ofNat_toNat])

/-- The decimal digits by value. -/
theorem digitValue_eq_some_of_lt {c : Char} {d : Nat} (hd : d < 10) : digitValue c = some d ↔ c = Nat.digitChar d := by
  have key : ∀ k < 103, ∀ d < 10, digitValue (Char.ofNat k) = some d → Char.ofNat k = Nat.digitChar d := by decide
  constructor
  · intro h
    obtain ⟨-, hc⟩ := digitValue_bounds h
    exact Char.ofNat_toNat c ▸ key c.toNat hc d hd (by rwa [Char.ofNat_toNat])
  · rintro rfl
    have : ∀ d < 10, digitValue (Nat.digitChar d) = some d := by decide
    exact this d hd

/-- Reading digits in a base: every character is a digit of the base, and the value grows digit by digit. -/
theorem parseDigits_eq_some {base : Nat} {cs : List Char} {v n : Nat} :
    parseDigits base cs v = some n ↔
      ∃ ds : List Nat, cs.map digitValue = ds.map some ∧ (∀ d ∈ ds, d < base) ∧
        n = ds.foldl (fun v d => base * v + d) v := by
  induction cs generalizing v with
  | nil =>
    constructor
    · intro h; cases h; exact ⟨[], rfl, by simp, rfl⟩
    · rintro ⟨ds, h, -, rfl⟩
      cases ds with
      | nil => rfl
      | cons d ds => cases h
  | cons c cs ih =>
    constructor
    · intro h
      unfold parseDigits at h
      split at h
      · cases h
      · next d hd =>
        split at h
        · next hb =>
          obtain ⟨ds, h₁, h₂, h₃⟩ := ih.1 h
          exact ⟨d :: ds, by simp [hd, h₁], by simpa using ⟨hb, h₂⟩, by rw [h₃, List.foldl_cons, Nat.mul_comm]⟩
        · cases h
    · rintro ⟨ds, h₁, h₂, h₃⟩
      cases ds with
      | nil => cases h₁
      | cons d ds =>
        simp only [List.map_cons, List.cons.injEq] at h₁
        have hb : d < base := h₂ d (by simp)
        simp only [parseDigits, h₁.1, if_pos hb]
        exact ih.2 ⟨ds, h₁.2, fun e he => h₂ e (by simp [he]), by rw [h₃, List.foldl_cons, Nat.mul_comm]⟩

/-- Characters are these decimal digits. -/
theorem map_digitValue_decimal {cs : List Char} {ds : List Nat} (h : ∀ d ∈ ds, d < 10) :
    cs.map digitValue = ds.map some ↔ cs = ds.map Nat.digitChar := by
  induction ds generalizing cs with
  | nil => simp
  | cons d ds ih =>
    cases cs with
    | nil => simp
    | cons c cs =>
      simp only [List.map_cons, List.cons.injEq, digitValue_eq_some_of_lt (h d (by simp)),
        ih (fun e he => h e (by simp [he]))]

/-- Characters are these hexadecimal digits, in either case. -/
theorem map_digitValue_hexadecimal {cs : List Char} {ds : List Nat} (h : ∀ d ∈ ds, d < 16) :
    cs.map digitValue = ds.map some ↔ cs.map Char.toLower = ds.map Nat.digitChar := by
  induction ds generalizing cs with
  | nil => simp
  | cons d ds ih =>
    cases cs with
    | nil => simp
    | cons c cs =>
      simp only [List.map_cons, List.cons.injEq, digitValue_eq_some, h d (by simp), true_and,
        ih (fun e he => h e (by simp [he]))]

theorem parseDigits_decimal {cs : List Char} {n : Nat} (hc : cs ≠ []) :
    parseDigits 10 cs 0 = some n ↔ IsDecimal cs n := by
  rw [parseDigits_eq_some]
  constructor
  · rintro ⟨ds, h₁, h₂, h₃⟩
    refine ⟨ds, ?_, h₂, (map_digitValue_decimal h₂).1 h₁, h₃⟩
    rintro rfl
    exact hc (by simpa using h₁)
  · rintro ⟨ds, -, h₂, h₁, h₃⟩
    exact ⟨ds, (map_digitValue_decimal h₂).2 h₁, h₂, h₃⟩

theorem parseDigits_hexadecimal {hs : List Char} {n : Nat} (hc : hs ≠ []) :
    parseDigits 16 hs 0 = some n ↔ IsHexadecimal ('0' :: 'x' :: hs) n := by
  rw [parseDigits_eq_some]
  constructor
  · rintro ⟨ds, h₁, h₂, h₃⟩
    refine ⟨hs, ds, rfl, ?_, h₂, (map_digitValue_hexadecimal h₂).1 h₁, h₃⟩
    rintro rfl
    exact hc (by simpa using h₁)
  · rintro ⟨hs', ds, he, -, h₂, h₁, h₃⟩
    cases he
    exact ⟨ds, (map_digitValue_hexadecimal h₂).2 h₁, h₂, h₃⟩

theorem not_isDecimal_prefix {cs : List Char} {n : Nat} : ¬IsDecimal ('0' :: 'x' :: cs) n := by
  rintro ⟨ds, -, h₂, h₁, -⟩
  match ds, h₂, h₁ with
  | [d], _, h₁ => simp at h₁
  | d :: e :: ds, h₂, h₁ =>
    have : ∀ e < 10, 'x' ≠ Nat.digitChar e := by decide
    simp only [List.map_cons, List.cons.injEq] at h₁
    exact this e (h₂ e (by simp)) h₁.2.1

/-- An operand's text is a numeral exactly when it is a decimal or a `0x` hexadecimal one. -/
theorem parseNatural_eq_some {cs : List Char} {n : Nat} :
    parseNatural cs = some n ↔ IsDecimal cs n ∨ IsHexadecimal cs n := by
  unfold parseNatural
  split
  · constructor
    · intro h; cases h
    · rintro (⟨ds, h, -, h₁, -⟩ | ⟨hs, ds, h₁, -⟩)
      · exact absurd (by simpa using h₁.symm) h
      · cases h₁
  · rw [parseDigits_hexadecimal (by simp)]
    exact ⟨.inr, fun h => h.resolve_left not_isDecimal_prefix⟩
  · next c cs hx =>
    rw [parseDigits_decimal (by simp)]
    refine ⟨.inl, fun h => h.resolve_right ?_⟩
    rintro ⟨hs, ds, h₁, h₂, -, h₃, -⟩
    cases hs with
    | nil => exact h₂ (by simpa using h₃.symm)
    | cons c' hs => cases h₁; exact hx c' hs rfl rfl

/-- A numeral has a character, and neither blank nor comma. -/
theorem numeral_chars {cs : List Char} {n : Nat} (h : parseNatural cs = some n) :
    cs ≠ [] ∧ ∀ c ∈ cs, isBlank c = false ∧ c ≠ ',' := by
  have ok : ∀ {c : Char} {d : Nat}, digitValue c = some d → isBlank c = false ∧ c ≠ ',' := by
    intro c d hd
    constructor
    · by_contra hb
      simp only [isBlank, Bool.not_eq_false, Bool.or_eq_true, beq_iff_eq, or_assoc] at hb
      rcases hb with rfl | rfl | rfl <;> exact absurd hd (by decide +revert)
    · rintro rfl
      exact absurd hd (by decide +revert)
  have run : ∀ {base : Nat} {cs : List Char} {v m : Nat}, parseDigits base cs v = some m →
      ∀ c ∈ cs, isBlank c = false ∧ c ≠ ',' := by
    intro base cs v m h c hc
    obtain ⟨ds, h₁, -⟩ := parseDigits_eq_some.1 h
    have : digitValue c ∈ ds.map some := h₁ ▸ List.mem_map_of_mem hc
    obtain ⟨d, -, hd⟩ := List.mem_map.1 this
    exact ok hd.symm
  unfold parseNatural at h
  split at h
  · cases h
  · refine ⟨by simp, fun c hc => ?_⟩
    rcases List.mem_cons.1 hc with rfl | hc
    · decide
    · rcases List.mem_cons.1 hc with rfl | hc
      · decide
      · exact run h c hc
  · exact ⟨by simp, run h⟩

/-! ### Blanks -/

/-- No blank stands at either end. -/
def Trimmed (cs : List Char) : Prop :=
  (∀ c, cs.head? = some c → isBlank c = false) ∧ ∀ c, cs.getLast? = some c → isBlank c = false

theorem blanks_nil : Blanks [] := fun _ h => by cases h

theorem blanks_append {b e : List Char} : Blanks (b ++ e) ↔ Blanks b ∧ Blanks e := by
  simp only [Blanks, List.mem_append, or_imp, forall_and]

/-- Blanks before a text that starts with none, or before nothing, are dropped. -/
theorem dropWhile_blanks {b cs : List Char} (hb : Blanks b) (hc : ∀ c, cs.head? = some c → isBlank c = false) :
    (b ++ cs).dropWhile isBlank = cs := by
  induction b with
  | nil =>
    cases cs with
    | nil => rfl
    | cons c cs => simp [hc c rfl]
  | cons d b ih =>
    simp only [List.cons_append, List.dropWhile_cons, hb d (by simp), if_true]
    exact ih fun c h => hb c (by simp [h])

/-- Dropping leading blanks takes blanks off and leaves a text that starts with none. -/
theorem dropWhile_spec (cs : List Char) : ∃ b, Blanks b ∧ cs = b ++ cs.dropWhile isBlank ∧
    ∀ c, (cs.dropWhile isBlank).head? = some c → isBlank c = false := by
  induction cs with
  | nil => exact ⟨[], blanks_nil, rfl, fun _ h => by cases h⟩
  | cons d cs ih =>
    by_cases hd : isBlank d = true
    · obtain ⟨b, hb, he, hc⟩ := ih
      simp only [List.dropWhile_cons, hd, if_true]
      refine ⟨d :: b, fun c h => ?_, by rw [List.cons_append, ← he], hc⟩
      rcases List.mem_cons.1 h with rfl | h
      · exact hd
      · exact hb c h
    · have hd : isBlank d = false := by simpa using hd
      simp only [List.dropWhile_cons, hd]
      exact ⟨[], blanks_nil, rfl, fun c h => by cases h; exact hd⟩

/-- What trimming leaves of a text with blanks around it. -/
theorem trimBlanks_eq {b core e : List Char} (hb : Blanks b) (he : Blanks e) (hc : Trimmed core) :
    trimBlanks (b ++ core ++ e) = core := by
  have hr : Blanks e.reverse := fun c h => he c (by simpa using h)
  unfold trimBlanks
  cases core with
  | nil =>
    rw [List.append_nil, show (b ++ e).dropWhile isBlank = [] by
      simpa using dropWhile_blanks (cs := []) (blanks_append.2 ⟨hb, he⟩) (fun _ h => by cases h)]
    rfl
  | cons c core =>
    rw [List.append_assoc, dropWhile_blanks hb (fun d h => hc.1 d (by simpa using h)), List.reverse_append,
      dropWhile_blanks hr (fun d h => hc.2 d (List.head?_reverse ▸ h)), List.reverse_reverse]

/-- Trimming takes blanks off both ends and nothing else. -/
theorem trimBlanks_spec (cs : List Char) :
    ∃ b e, Blanks b ∧ Blanks e ∧ cs = b ++ trimBlanks cs ++ e ∧ Trimmed (trimBlanks cs) := by
  obtain ⟨b, hb, hcs, hh⟩ := dropWhile_spec cs
  obtain ⟨e, he, hrs, hl⟩ := dropWhile_spec (cs.dropWhile isBlank).reverse
  have hm : cs.dropWhile isBlank = trimBlanks cs ++ e.reverse := by
    rw [← List.reverse_reverse (cs.dropWhile isBlank), hrs, List.reverse_append]
    rfl
  refine ⟨b, e.reverse, hb, fun c h => he c (by simpa using h), ?_, ?_, ?_⟩
  · rw [List.append_assoc, ← hm]; exact hcs
  · intro c h
    refine hh c ?_
    rw [hm, List.head?_append, h]
    rfl
  · intro c h
    refine hl c ?_
    rw [← List.getLast?_reverse]
    exact h

theorem trimBlanks_eq_nil {cs : List Char} : trimBlanks cs = [] ↔ Blanks cs := by
  constructor
  · intro h
    obtain ⟨b, e, hb, he, hcs, -⟩ := trimBlanks_spec cs
    rw [hcs, h, List.append_nil]
    exact blanks_append.2 ⟨hb, he⟩
  · intro h
    simpa using trimBlanks_eq (core := []) h blanks_nil ⟨fun _ h => (by cases h), fun _ h => (by cases h)⟩

theorem trimmed_of_noBlank {cs : List Char} (h : ∀ c ∈ cs, isBlank c = false) : Trimmed cs :=
  ⟨fun c hc => h c (List.mem_of_head? hc), fun c hc => h c (List.mem_of_getLast? hc)⟩

/-! ### Operands -/

/-- A part between commas reads as a number exactly when it says it. -/
theorem parseOperand_eq_some {cs : List Char} {n : Nat} : parseNatural (trimBlanks cs) = some n ↔ OperandSays cs n := by
  constructor
  · intro h
    obtain ⟨b, e, hb, he, hcs, -⟩ := trimBlanks_spec cs
    exact ⟨b, _, e, hb, he, hcs, parseNatural_eq_some.1 h⟩
  · rintro ⟨b, core, e, hb, he, rfl, h⟩
    have h := parseNatural_eq_some.2 h
    rw [trimBlanks_eq hb he (trimmed_of_noBlank fun c hc => ((numeral_chars h).2 c hc).1)]
    exact h

theorem comma_notMem_of_says {cs : List Char} {n : Nat} (h : OperandSays cs n) : ',' ∉ cs := by
  obtain ⟨b, core, e, hb, he, rfl, h⟩ := h
  have hc := (numeral_chars (parseNatural_eq_some.2 h)).2
  simp only [List.mem_append, not_or]
  exact ⟨⟨fun h => absurd (hb _ h) (by decide), fun h => (hc _ h).2 rfl⟩, fun h => absurd (he _ h) (by decide)⟩

theorem cutAt_ne_nil (sep : Char) (cs : List Char) : cutAt sep cs ≠ [] := by
  cases cs with
  | nil => simp [cutAt]
  | cons c cs =>
    unfold cutAt
    split
    · simp
    · split <;> simp

/-- A text without the separator is one part. -/
theorem cutAt_of_notMem {sep : Char} {cs : List Char} (h : sep ∉ cs) : cutAt sep cs = [cs] := by
  induction cs with
  | nil => rfl
  | cons c cs ih =>
    simp only [List.mem_cons, not_or] at h
    simp [cutAt, ih h.2, Ne.symm h.1]

/-- A text with a separator is its first part and the parts of the rest. -/
theorem cutAt_append {sep : Char} {part rest : List Char} (h : sep ∉ part) :
    cutAt sep (part ++ sep :: rest) = part :: cutAt sep rest := by
  induction part with
  | nil =>
    cases hc : cutAt sep rest with
    | nil => exact absurd hc (cutAt_ne_nil sep rest)
    | cons p ps => simp [cutAt, hc]
  | cons c part ih =>
    simp only [List.mem_cons, not_or] at h
    simp [cutAt, ih h.2, Ne.symm h.1]

/-- A text has no separator, or is its first part, a separator and the rest. -/
theorem cutAt_cases (sep : Char) (cs : List Char) :
    sep ∉ cs ∨ ∃ part rest, sep ∉ part ∧ cs = part ++ sep :: rest := by
  induction cs with
  | nil => exact .inl (by simp)
  | cons c cs ih =>
    by_cases hc : c = sep
    · exact .inr ⟨[], cs, by simp, by simp [hc]⟩
    · rcases ih with h | ⟨part, rest, h, rfl⟩
      · exact .inl (by simp [h, Ne.symm hc])
      · exact .inr ⟨c :: part, rest, by simp [h, Ne.symm hc], rfl⟩

theorem parseNaturals_cons_eq_some {part : List Char} {parts : List (List Char)} {ns : List Nat} :
    parseNaturals (part :: parts) = some ns ↔
      ∃ n ms, ns = n :: ms ∧ OperandSays part n ∧ parseNaturals parts = some ms := by
  simp only [← parseOperand_eq_some]
  conv_lhs => unfold parseNaturals
  cases parseNatural (trimBlanks part) <;> cases parseNaturals parts <;> simp [eq_comm]

/-- The parts between commas read as numbers exactly when the text says them. -/
theorem operandsSay_of_cut {cs : List Char} {ns : List Nat} :
    parseNaturals (cutAt ',' cs) = some ns ↔ ns ≠ [] ∧ OperandsSay cs ns := by
  induction ns generalizing cs with
  | nil =>
    rcases hc : cutAt ',' cs with _ | ⟨p, ps⟩
    · exact absurd hc (cutAt_ne_nil _ _)
    · simp [parseNaturals_cons_eq_some]
  | cons n ns ih =>
    rcases cutAt_cases ',' cs with h | ⟨part, rest, h, rfl⟩
    · rw [cutAt_of_notMem h, parseNaturals_cons_eq_some]
      cases ns with
      | nil => simp [parseNaturals, OperandsSay]
      | cons m ns =>
        simp only [parseNaturals, OperandsSay]
        constructor
        · rintro ⟨_, _, he, -, h⟩; cases h; cases he
        · rintro ⟨-, p, r, rfl, -⟩; exact absurd (by simp) h
    · rw [cutAt_append h, parseNaturals_cons_eq_some]
      cases ns with
      | nil =>
        constructor
        · rintro ⟨_, _, he, -, hr⟩
          cases he
          exact absurd rfl (ih.1 hr).1
        · rintro ⟨-, hs⟩
          exact absurd (by simp) (comma_notMem_of_says hs)
      | cons m ns =>
        constructor
        · rintro ⟨_, _, he, hp, hr⟩
          cases he
          exact ⟨by simp, part, rest, rfl, hp, (ih.1 hr).2⟩
        · rintro ⟨-, p, r, he, hp, hr⟩
          obtain ⟨rfl, rfl⟩ : part = p ∧ rest = r := by
            have := congrArg (cutAt ',') he
            rw [cutAt_append h, cutAt_append (comma_notMem_of_says hp)] at this
            obtain rfl : part = p := (List.cons.inj this).1
            exact ⟨rfl, by simpa using he⟩
          exact ⟨_, _, rfl, hp, ih.2 ⟨by simp, hr⟩⟩

/-- Blanks around an operand are no part of it. -/
theorem operandSays_pad {b cs e : List Char} {n : Nat} (hb : Blanks b) (he : Blanks e) :
    OperandSays (b ++ cs ++ e) n ↔ OperandSays cs n := by
  have h : trimBlanks (b ++ cs ++ e) = trimBlanks cs := by
    obtain ⟨b', e', hb', he', hcs, ht⟩ := trimBlanks_spec cs
    have := trimBlanks_eq (blanks_append.2 ⟨hb, hb'⟩) (blanks_append.2 ⟨he', he⟩) ht
    rw [← this]
    conv_lhs => rw [hcs]
    simp only [List.append_assoc]
  rw [← parseOperand_eq_some, ← parseOperand_eq_some, h]

theorem operandsSay_pad_left {b cs : List Char} {ns : List Nat} (hb : Blanks b) :
    OperandsSay (b ++ cs) ns ↔ OperandsSay cs ns := by
  have one : ∀ part n, OperandSays (b ++ part) n ↔ OperandSays part n := fun part n => by
    simpa using operandSays_pad (cs := part) (n := n) hb blanks_nil
  match ns with
  | [] => simp [OperandsSay, blanks_append, hb]
  | [n] => exact one cs n
  | n :: m :: ns =>
    rw [show OperandsSay (b ++ cs) (n :: m :: ns) = _ from rfl, show OperandsSay cs (n :: m :: ns) = _ from rfl]
    have hn : ',' ∉ b := fun h => absurd (hb _ h) (by decide)
    constructor
    · rintro ⟨p, r, he, hp, hr⟩
      rcases List.append_eq_append_iff.1 he with ⟨a, rfl, h⟩ | ⟨a, h, h'⟩
      · exact ⟨a, r, h, (one a n).1 hp, hr⟩
      · cases a with
        | nil =>
          simp at h h'
          subst h h'
          exact ⟨[], r, rfl, (one [] n).1 (by simpa using hp), hr⟩
        | cons c a =>
          simp only [List.cons_append, List.cons.injEq] at h'
          exact absurd (by rw [h, ← h'.1]; simp) hn
    · rintro ⟨p, r, rfl, hp, hr⟩
      exact ⟨b ++ p, r, by simp, (one p n).2 hp, hr⟩

theorem operandsSay_pad_right {cs e : List Char} {ns : List Nat} (he : Blanks e) :
    OperandsSay (cs ++ e) ns ↔ OperandsSay cs ns := by
  have one : ∀ part n, OperandSays (part ++ e) n ↔ OperandSays part n := fun part n => by
    simpa using operandSays_pad (b := []) (cs := part) (n := n) blanks_nil he
  induction ns generalizing cs with
  | nil => simp [OperandsSay, blanks_append, he]
  | cons n ns ih =>
    cases ns with
    | nil => exact one cs n
    | cons m ns =>
      have hn : ',' ∉ e := fun h => absurd (he _ h) (by decide)
      simp only [OperandsSay]
      constructor
      · rintro ⟨p, r, hc, hp, hr⟩
        rcases List.append_eq_append_iff.1 hc.symm with ⟨a, h, h'⟩ | ⟨a, rfl, h'⟩
        · cases a with
          | nil =>
            simp at h'
            exact absurd (h' ▸ by simp) hn
          | cons c a =>
            simp only [List.cons_append, List.cons.injEq] at h'
            obtain ⟨rfl, rfl⟩ := h'
            exact ⟨p, a, h, hp, ih.1 hr⟩
        · exact absurd (h' ▸ by simp) hn
      · rintro ⟨p, r, rfl, hp, hr⟩
        exact ⟨p, r ++ e, by simp, hp, ih.2 hr⟩

/-- The operands of a line are numbers separated by commas, with blanks around them. -/
theorem parseOperands_eq_some {cs : List Char} {ns : List Nat} : parseOperands cs = some ns ↔ OperandsSay cs ns := by
  obtain ⟨b, e, hb, he, hcs, -⟩ := trimBlanks_spec cs
  have h : OperandsSay cs ns ↔ OperandsSay (trimBlanks cs) ns := by
    conv_lhs => rw [hcs]
    rw [operandsSay_pad_right he, operandsSay_pad_left hb]
  rw [h]
  unfold parseOperands
  cases ht : trimBlanks cs with
  | nil =>
    cases ns with
    | nil => simp [OperandsSay, blanks_nil]
    | cons n ns =>
      have : ¬OperandsSay [] (n :: ns) := fun hs => by
        have := operandsSay_of_cut.2 ⟨by simp, hs⟩
        simp [cutAt, parseNaturals_cons_eq_some, ← parseOperand_eq_some, trimBlanks, parseNatural] at this
      simp [this]
  | cons c cs' =>
    simp only [operandsSay_of_cut]
    refine ⟨And.right, fun hs => ⟨?_, hs⟩⟩
    rintro rfl
    have := trimBlanks_eq_nil.2 (show Blanks (c :: cs') from hs)
    obtain ⟨b', e', hb', he', hcs', ht'⟩ := trimBlanks_spec cs
    rw [ht] at ht'
    exact absurd (hs c (by simp)) (by simp [ht'.1 c rfl])

/-! ### Lines -/

/-- The body of a line is what stands before its comment. -/
theorem stripComment_eq {line body : List Char} : stripComment line = body ↔ BodyOf line body := by
  induction line generalizing body with
  | nil =>
    constructor
    · rintro rfl; exact ⟨by simp [stripComment], .inl rfl⟩
    · rintro ⟨-, rfl | ⟨c, h⟩⟩
      · rfl
      · simp at h
  | cons c line ih =>
    by_cases hc : c = ';'
    · subst hc
      constructor
      · rintro rfl; exact ⟨by simp [stripComment], .inr ⟨line, by simp [stripComment]⟩⟩
      · rintro ⟨h, rfl | ⟨c, he⟩⟩
        · exact absurd (by simp) h
        · cases body with
          | nil => simp [stripComment]
          | cons d body =>
            simp only [List.cons_append, List.cons.injEq] at he
            exact absurd (he.1 ▸ List.mem_cons_self) h
    · have hs : stripComment (c :: line) = c :: stripComment line := by simp [stripComment, hc]
      rw [hs]
      constructor
      · rintro rfl
        obtain ⟨h, h'⟩ := ih.1 rfl
        refine ⟨by simp [h, Ne.symm hc], ?_⟩
        rcases h' with h' | ⟨m, h'⟩
        · exact .inl (congrArg (c :: ·) h')
        · exact .inr ⟨m, congrArg (c :: ·) h'⟩
      · rintro ⟨h, h'⟩
        cases body with
        | nil =>
          rcases h' with h' | ⟨m, h'⟩
          · cases h'
          · cases h'; exact absurd rfl hc
        | cons d body =>
          obtain rfl : c = d := by
            rcases h' with h' | ⟨m, h'⟩
            · exact (List.cons.inj h').1
            · exact (List.cons.inj h').1
          refine congrArg (c :: ·) (ih.2 ⟨fun hm => h (by simp [hm]), ?_⟩)
          rcases h' with h' | ⟨m, h'⟩
          · exact .inl (List.cons.inj h').2
          · exact .inr ⟨m, (List.cons.inj h').2⟩

/-- A line whose first word and operands are these reads as what they say. -/
theorem parseLine_of_parts {line b m rest : List Char} (hl : BodyOf line (b ++ m ++ rest)) (hb : Blanks b) (hm : m ≠ [])
    (hn : ∀ c ∈ m, isBlank c = false) (hr : ∀ c, rest.head? = some c → isBlank c = true) :
    parseLine line =
      match parseOperands rest with
      | none => .error
      | some ns => parseCommand (m.map Char.toUpper) ns := by
  obtain ⟨e, he, hre, hlast⟩ := dropWhile_spec rest.reverse
  obtain ⟨r, hrest, hlast⟩ : ∃ r, rest = r ++ e.reverse ∧ ∀ c, r.getLast? = some c → isBlank c = false :=
    ⟨_, by rw [← List.reverse_reverse rest, hre, List.reverse_append],
      fun c h => hlast c (by rwa [List.getLast?_reverse] at h)⟩
  have he : Blanks e.reverse := fun c h => he c (by simpa using h)
  have hr : ∀ c, r.head? = some c → isBlank c = true := fun c h => hr c (by simp [hrest, h])
  have ht : Trimmed (m ++ r) := by
    constructor
    · intro c h
      cases m with
      | nil => exact absurd rfl hm
      | cons d m => cases h; exact hn _ (by simp)
    · intro c h
      rw [List.getLast?_append] at h
      cases hl : r.getLast? with
      | none => rw [hl] at h; exact hn c (List.mem_of_getLast? h)
      | some d => rw [hl] at h; cases h; exact hlast _ hl
  have hbody : trimBlanks (stripComment line) = m ++ r := by
    rw [stripComment_eq.2 hl, hrest, ← List.append_assoc, List.append_assoc b]
    exact trimBlanks_eq hb he ht
  have hops : parseOperands rest = parseOperands r :=
    Option.ext fun ns => by rw [parseOperands_eq_some, parseOperands_eq_some, hrest, operandsSay_pad_right he]
  have hword : (m ++ r).takeWhile (fun d => !isBlank d) = m ∧ (m ++ r).dropWhile (fun d => !isBlank d) = r := by
    cases r with
    | nil => simpa [List.takeWhile_eq_self_iff, List.dropWhile_eq_nil_iff] using hn
    | cons c r =>
      have hc := hr c rfl
      constructor
      · rw [List.takeWhile_append_of_pos (by simpa using hn)]; simp [hc]
      · rw [List.dropWhile_append_of_pos (by simpa using hn)]; simp [hc]
  unfold parseLine
  rw [hbody, hops]
  cases hmr : m ++ r with
  | nil => simp at hmr; exact absurd hmr.1 hm
  | cons c cs =>
    cases ho : parseOperands r <;> simp only [← hmr, hword, ho]

/-- A line that reads as anything but blank has a first word and the rest. -/
theorem parseLine_parts {line : List Char} (h : parseLine line ≠ .blank) :
    ∃ b m rest, BodyOf line (b ++ m ++ rest) ∧ Blanks b ∧ m ≠ [] ∧ (∀ c ∈ m, isBlank c = false) ∧
      ∀ c, rest.head? = some c → isBlank c = true := by
  obtain ⟨b, e, hb, he, hs, ht⟩ := trimBlanks_spec (stripComment line)
  have hne : trimBlanks (stripComment line) ≠ [] := fun hn => h (by simp [parseLine, hn])
  generalize trimBlanks (stripComment line) = t at *
  refine ⟨b, t.takeWhile (fun d => !isBlank d), t.dropWhile (fun d => !isBlank d) ++ e, ?_, hb, ?_, ?_, ?_⟩
  · apply stripComment_eq.1
    rw [hs, List.append_assoc b (t.takeWhile _), ← List.append_assoc (t.takeWhile _), List.takeWhile_append_dropWhile,
      List.append_assoc]
  · cases t with
    | nil => exact absurd rfl hne
    | cons c t => simp [ht.1 c rfl]
  · intro c hc
    simpa using List.mem_takeWhile_imp hc
  · intro c hc
    rw [List.head?_append] at hc
    cases hd : (t.dropWhile fun d => !isBlank d).head? with
    | none => rw [hd] at hc; exact he c (List.mem_of_head? hc)
    | some d =>
      rw [hd] at hc
      cases hc
      have := List.head?_dropWhile_not (fun d => !isBlank d) t
      rw [hd] at this
      simpa using this

/-- A mnemonic's letters are no blanks. -/
theorem noBlank_of_toUpper {m M : List Char} (h : m.map Char.toUpper = M) (hM : ∀ c ∈ M, isBlank c = false) :
    ∀ c ∈ m, isBlank c = false := by
  intro c hc
  by_contra hb
  simp only [isBlank, Bool.not_eq_false, Bool.or_eq_true, beq_iff_eq, or_assoc] at hb
  have hu := hM c.toUpper (h ▸ List.mem_map_of_mem hc)
  rcases hb with rfl | rfl | rfl <;> exact absurd hu (by decide)

/-- A line reads as a mnemonic with operands exactly when it says them. -/
theorem parseLine_of_says {line M : List Char} {ns : List Nat} (hM : M ≠ []) (hn : ∀ c ∈ M, isBlank c = false)
    (h : LineSays line M ns) : parseLine line = parseCommand M ns := by
  obtain ⟨b, m, rest, hl, hb, hm, hr, ho⟩ := h
  rw [parseLine_of_parts hl hb (by rintro rfl; exact hM hm.symm) (noBlank_of_toUpper hm hn) hr,
    parseOperands_eq_some.2 ho, hm]

/-- The mnemonics and operands that are a command. -/
theorem parseCommand_eq_command {M : List Char} {ns : List Nat} {i : Instr} (h : parseCommand M ns = .command i) :
    (i = .refresh ∧ M = ['R', 'E', 'F', 'R', 'E', 'S', 'H'] ∧ ns = []) ∨
    (∃ p x y on, i = .setPixel p x y on ∧ M = ['S', 'E', 'T', 'P', 'I', 'X', 'E', 'L'] ∧ ns = [p, x, y, on.toNat]) ∨
    (∃ p x y, i = .getPixel p x y ∧ M = ['G', 'E', 'T', 'P', 'I', 'X', 'E', 'L'] ∧ ns = [p, x, y]) := by
  unfold parseCommand at h
  split at h
  · next hM =>
    split at h
    · cases h; exact .inl ⟨rfl, hM, rfl⟩
    · cases h
  · split at h
    · next hM =>
      split at h
      · cases h; exact .inr (.inl ⟨_, _, _, false, rfl, hM, rfl⟩)
      · cases h; exact .inr (.inl ⟨_, _, _, true, rfl, hM, rfl⟩)
      · cases h
    · split at h
      · next hM =>
        split at h
        · cases h; exact .inr (.inr ⟨_, _, _, rfl, hM, rfl⟩)
        · cases h
      · cases h

end Sys2Proof.Safety
end

