-- ==== Sys2Proof/Tests/Slice0.lean ====
section
/-! SUPPORT. Tests of one step on small states, with expected values from spec/95_test_vectors.md and the rules' examples,
and for each statement with hypotheses a witness that meets them. -/

namespace Sys2Proof.Tests

open Sys2Proof Sys2Proof.Machine Sys2Proof.Safety

set_option maxRecDepth 4000

/-! ### Small states -/

/-- Launch parameters with every level 1 and a bus-busy input. -/
def launch (panels : Nat) (overlap : OverlapPolicy) : Params where
  panels := panels
  spiClock := 0
  spiMode := 0
  overlap := overlap
  hasBusyInput := true
  oeActiveLevel := true
  latchActiveLevel := true
  busyActiveLevel := true

/-- The reset state with these panels (DROP) and these bytes written. -/
def start (panels : Nat) (fb : List Host.Cell) : State :=
  { State.resetWith (launch panels .drop) 0 Env.empty with fb := fb }

/-- One panel, nothing written, at a phase. -/
def atPhase (x : Phase) : State := { start 1 [] with phase := x }

/-- A field of the next state, if there is one. -/
def next {α : Type} (o : Host.Outcome State Fault Refusal) (f : State → α) : Option α :=
  match o with
  | .next t => some (f t)
  | .fault _ => none
  | .refused _ => none

/-! ### Well-formedness: an ill-formed term for each check (R75, R80) -/

theorem test_setPixel_panel_too_wide : (Instr.setPixel 256 0 0 true).wellFormed = false := by decide
theorem test_setPixel_x_too_wide : (Instr.setPixel 0 256 0 true).wellFormed = false := by decide
theorem test_setPixel_y_too_wide : (Instr.setPixel 0 0 256 true).wellFormed = false := by decide
theorem test_getPixel_panel_too_wide : (Instr.getPixel 256 0 0).wellFormed = false := by decide
theorem test_getPixel_x_too_wide : (Instr.getPixel 0 256 0).wellFormed = false := by decide
theorem test_getPixel_y_too_wide : (Instr.getPixel 0 0 256).wellFormed = false := by decide

/-! ### Words written out bit by bit from R72 to R74, and the vectors V and I -/

theorem test_decode_refresh : decode 0b0001_000_0_00000000_00000000_00000000#32 = .ok .refresh := by decide
theorem test_decode_setPixel :
    decode 0b0010_000_1_00000001_00001001_00000101#32 = .ok (.setPixel 1 9 5 true) := by decide
theorem test_decode_setPixel_clear :
    decode 0b0010_000_0_11111111_00011111_00001111#32 = .ok (.setPixel 255 31 15 false) := by decide
theorem test_decode_getPixel : decode 0b0011_000_0_00000010_00000001_00000011#32 = .ok (.getPixel 2 1 3) := by decide
theorem test_decode_reserved_ops : decode 0x00000000#32 = .error .reservedOp ∧ decode 0x40000000#32 = .error .reservedOp ∧
    decode 0xF0000000#32 = .error .reservedOp := by decide
theorem test_decode_refresh_low_bits : decode 0x10000001#32 = .error .refreshNotPlain := by decide
theorem test_decode_setPixel_reserved : decode 0x22000000#32 = .error .setPixelReserved := by decide
theorem test_decode_getPixel_on : decode 0x31000000#32 = .error .getPixelReserved := by decide
theorem test_encode_words : encode .refresh = 0x10000000#32 ∧ encode (.setPixel 1 9 5 true) = 0x21010905#32 ∧
    encode (.getPixel 0 255 0) = 0x3000FF00#32 := by decide
theorem test_table_rows : decodeTableWord 32 0x10000000 = some .refresh ∧
    decodeTableWord 32 0x2100000C = some (.setPixel 0 0 12 true) ∧
    decodeTableWord 32 0x3000000C = some (.getPixel 0 0 12) ∧ decodeTableWord 32 0x10000001 = none := by decide

/-! ### The commands -/

/-- V12: P = 2, SETPIXEL 1, 9, 5, 1 gives fb[45] = 0x40. -/
theorem test_setPixel_two_panels :
    next (exec (.setPixel 1 9 5 true) (start 2 [(45, 0#8)])) (fun t => (t.fb, t.responses)) =
      some ([(45, 0x40#8)], [0#32]) := by decide

/-- V5: clearing keeps the neighbours, fb[0] = 0xFF becomes 0xEF. -/
theorem test_setPixel_clear :
    next (exec (.setPixel 0 3 0 false) (start 1 [(0, 0xFF#8)])) (fun t => (t.fb, t.responses)) =
      some ([(0, 0xEF#8)], [0#32]) := by decide

/-- V13, V14: fb[0] = 0x80. -/
theorem test_getPixel_bits :
    next (exec (.getPixel 0 0 0) (start 1 [(0, 0x80#8)])) (·.responses) = some [0x100#32] ∧
    next (exec (.getPixel 0 1 0) (start 1 [(0, 0x80#8)])) (·.responses) = some [0#32] := by decide

/-- V7, V8, V9, V16: one past each bound is out of range. -/
theorem test_out_of_range :
    next (exec (.setPixel 0 32 0 true) (start 1 [])) (fun t => (t.fb, t.responses)) = some ([], [1#32]) ∧
    next (exec (.setPixel 0 0 16 true) (start 1 [])) (fun t => (t.fb, t.responses)) = some ([], [1#32]) ∧
    next (exec (.setPixel 1 0 0 true) (start 1 [])) (fun t => (t.fb, t.responses)) = some ([], [1#32]) ∧
    next (exec (.getPixel 0 255 0) (start 1 [])) (·.responses) = some [1#32] := by decide

/-- R140's example, and S8: a second trigger under DROP does nothing. -/
theorem test_refresh_starts_once :
    next (exec .refresh (start 1 [])) (fun t => (t.phase, t.responses)) = some (.check, []) ∧
    next (exec .refresh (atPhase .check)) (fun t => (t.phase, t.pending)) = some (.check, false) := by decide

/-- S9: a second trigger under QUEUE1 is queued. -/
theorem test_refresh_queued :
    next (exec .refresh { atPhase .check with params := launch 1 .queue1 }) (fun t => (t.phase, t.pending)) =
      some (.check, true) := by decide

/-- I7: legality wins over range, through the machine step; I4: no refresh starts. -/
theorem test_illegal_words :
    next (step ((start 1 []).withFetchWord 32 0x2E000020)) (·.responses) = some [2#32] ∧
    next (step ((start 1 []).withFetchWord 32 0x10000001)) (fun t => (t.phase, t.responses)) =
      some (.idle, [2#32]) := by decide

/-- The first step after `State.reset` runs the word offered. -/
theorem test_reset_runs_the_first_word :
    next (step (State.reset.withFetchWord 32 0x10000000)) (·.phase) = some .check ∧
    next (step (State.reset.withFetchWord 32 0x2100000C)) (·.responses) = some [0#32] ∧
    next (step (State.reset.withFetchWord 32 0x3001000C)) (·.responses) = some [1#32] := by decide

/-! ### The ScanEngine -/

/-- R143's example: busy in the reset state. -/
theorem test_check_skips :
    next (microStep { atPhase .check with env := { Env.empty with busyIn := [true] } })
      (fun t => (t.phase, t.trace, t.initDone)) = some (.idle, [], false) := by decide

/-- W1: the first byte of a refresh at state 0 is fb[48]. -/
theorem test_shift_first_byte :
    next (microStep { start 1 [(48, 0x30#8)] with phase := .shift 0 0 }) (fun t => (t.trace, t.phase)) =
      some ([.byte 0x30#8], .shift 0 1) := by decide

/-- S3: the last byte of a refresh at state 3 is fb[15], and output is disabled next (R147). -/
theorem test_shift_last_byte :
    next (microStep { start 1 [(15, 0x0F#8)] with phase := .shift 3 3, seq := 3#2 }) (fun t => (t.trace, t.phase)) =
      some ([.byte 0x0F#8], .oeOff) := by decide

/-- L3-4: P = 2, state 1, byte 22 (i = 5, k = 2) reads index 45. -/
theorem test_shift_two_panels :
    shiftIndex { start 2 [] with seq := 1#2 } 5 2 = 45 := by decide

/-- A4: ADVANCE wraps from 3 to 0 and returns (0, 0); A1: from 0 to 1 it returns (1, 0). -/
theorem test_advance :
    (advanceSeq { start 1 [] with seq := 3#2 }).1.seq = 0#2 ∧
    (advanceSeq { start 1 [] with seq := 3#2 }).2 = (false, false) ∧ (advanceSeq (start 1 [])).2 = (true, false) := by decide

/-- R151, R152: `seq = 1` emits A=1 and B=0. -/
theorem test_row_lines :
    next (microStep { atPhase .rowA with seq := 1#2 }) (fun t => (t.trace, t.a)) = some ([.pin .a true], true) ∧
    next (microStep { atPhase .rowB with seq := 1#2 }) (fun t => (t.trace, t.b)) = some ([.pin .b false], false) := by decide

/-- U14: reset refuses P = 0 and P = 257; it admits 256, with ROW3 = 48·P. -/
theorem test_reset_range :
    next (step { start 1 [] with env := { Env.empty with turns := [.reset (launch 0 .drop)] } }) (·.row3) = none ∧
    next (step { start 1 [] with env := { Env.empty with turns := [.reset (launch 257 .drop)] } }) (·.row3) = none ∧
    next (step { start 1 [] with env := { Env.empty with turns := [.reset (launch 256 .drop)] } }) (·.row3) =
      some 12288 := by decide

/-! ### Text -/

/-- L3-2's first line, with its comment, and L3-5's word in hexadecimal and small letters. -/
theorem test_assemble_lines :
    assembleLine "SETPIXEL 0, 0, 12, 1    ; 0x2100000C".toList = .word 0x2100000C#32 ∧
    assembleLine "getpixel 0x0, 0xFF, 0".toList = .word 0x3000FF00#32 ∧
    assembleLine "  refresh".toList = .word 0x10000000#32 ∧ assembleLine "; nothing".toList = .blank := by decide

/-- R80: an operand above 255, an `on` outside 0 and 1, a missing operand. -/
theorem test_assembly_errors :
    assembleLine "GETPIXEL 0, 256, 0".toList = .error ∧ assembleLine "SETPIXEL 0, 0, 0, 2".toList = .error ∧
    assembleLine "GETPIXEL 0, 0".toList = .error ∧ assembleLine "REFRESH 1".toList = .error := by decide

/-- R83's spellings. -/
theorem test_spellings :
    spellEvent (.byte 0x3A#8) = "BYTE 0x3A".toList ∧ spellEvent (.pin .lat true) = "LAT=1".toList ∧
    spellEvent (.cfgFreq 0) = "CFGFREQ".toList := by decide

/-! ### Witnesses: for each statement with hypotheses, a state and operands that meet them together -/

/-- The outcome is a next state. -/
def GoesOn (o : Host.Outcome State Fault Refusal) : Prop := ∃ t, o = .next t

theorem goesOn_of {o : Host.Outcome State Fault Refusal} (h : next o (fun _ => true) = some true) : GoesOn o := by
  cases o with
  | next t => exact ⟨t, rfl⟩
  | fault r => cases h
  | refused r => cases h

/-- The reset state with any admitted P meets the geometry (R6, R27), whatever the registers hold. -/
theorem geometry_start {panels : Nat} (fb : List Host.Cell) (h₁ : 1 ≤ panels) (h₂ : panels ≤ 256) :
    Geometry (start panels fb) where
  panels_pos := h₁
  panels_le := h₂
  rowsize_eq := Nat.mul_comm panels 4
  row1_eq := by simp only [start, State.resetWith, row1Of, rowsizeOf, bytesPerPanelRow, panelW, bitsPerPixel, launch]; omega
  row2_eq := by simp only [start, State.resetWith, row2Of, rowsizeOf, bytesPerPanelRow, panelW, bitsPerPixel, launch]; omega
  row3_eq := by simp only [start, State.resetWith, row3Of, rowsizeOf, bytesPerPanelRow, panelW, bitsPerPixel, launch]; omega
  fbSize_eq := by simp only [start, State.resetWith, fbSizeOf, bytesPerPanelRow, panelW, panelH, bitsPerPixel, launch]

/-- One panel, a byte written, CHECK next and the bus free, the ScanEngine to step. -/
def accepted : State :=
  { start 1 [(48, 0x80#8)] with phase := .check, env := { Env.empty with busyIn := [false], turns := [.engine] } }

/-- One panel, a byte written, IDLE, the word of `SETPIXEL 0, 0, 12, 1` offered. -/
def offered : State := (start 1 [(48, 0#8)]).withFetchWord 32 0x2100000C

theorem inv_accepted : Inv accepted := by
  have g := geometry_start (panels := 1) [(48, 0x80#8)] (by decide) (by decide)
  exact ⟨⟨g.1, g.2, g.3, g.4, g.5, g.6, g.7⟩, by decide, by decide, by decide, by decide, by decide, by decide,
    by decide, by decide, by simp [accepted]⟩

theorem inv_offered : Inv offered := by
  have g := geometry_start (panels := 1) [(48, 0#8)] (by decide) (by decide)
  exact ⟨⟨g.1, g.2, g.3, g.4, g.5, g.6, g.7⟩, by decide, by decide, by decide, by decide, by decide, by decide,
    by decide, by decide, by simp [offered, State.withFetchWord, offerWord, State.setEnv, start, State.resetWith]⟩

/-- The last byte of a transfer. -/
def lastByte : State := { start 1 [] with phase := .shift 3 3, initDone := true }

theorem inv_lastByte : Inv lastByte := by
  have g := geometry_start (panels := 1) [] (by decide) (by decide)
  refine ⟨⟨g.1, g.2, g.3, g.4, g.5, g.6, g.7⟩, by decide, by decide, by decide, by decide, by decide, by decide,
    by decide, by decide, fun i k h => ?_⟩
  have hi : (3 : Nat) = i := by injection h
  rw [← hi]
  decide

/-- OE_ON of the first refresh. -/
def atEnd : State := { start 1 [] with phase := .oeOn, initDone := true, seq := 1#2 }

/-- The lines of group 0 being written, ROW_A or ROW_B next. -/
def atRow (x : Phase) : State := { start 1 [] with phase := x, initDone := true }

theorem inv_atRow {x : Phase} (h : x = .rowA ∨ x = .rowB) : Inv (atRow x) := by
  have g := geometry_start (panels := 1) [] (by decide) (by decide)
  rcases h with rfl | rfl <;> exact ⟨⟨g.1, g.2, g.3, g.4, g.5, g.6, g.7⟩, by decide, by decide, by decide, by decide,
    by decide, by decide, by decide, by decide, by simp [atRow]⟩

theorem inv_atEnd : Inv atEnd := by
  have g := geometry_start (panels := 1) [] (by decide) (by decide)
  exact ⟨⟨g.1, g.2, g.3, g.4, g.5, g.6, g.7⟩, by decide, by decide, by decide, by decide, by decide, by decide,
    by decide, by decide, by simp [atEnd]⟩

/-- A reset asked for, with a P of the caller's. -/
def resetAsked (panels : Nat) : State :=
  { start 1 [] with env := { Env.empty with turns := [.reset (launch panels .drop)] } }

theorem inv_resetAsked (panels : Nat) : Inv (resetAsked panels) := by
  have g := geometry_start (panels := 1) [] (by decide) (by decide)
  exact ⟨⟨g.1, g.2, g.3, g.4, g.5, g.6, g.7⟩, List.Pairwise.nil, by simp [resetAsked, start],
    fun h => Bool.noConfusion h, fun h => Bool.noConfusion h, by simp [resetAsked, start, State.resetWith],
    fun h => Bool.noConfusion h, fun h => Bool.noConfusion h, fun h => Bool.noConfusion h,
    by simp [resetAsked, start, State.resetWith]⟩

/-- A queued trigger, at a phase, with the bus claimed. -/
def queuedAt (x : Phase) : State :=
  { atPhase x with params := launch 1 .queue1, pending := true, env := { Env.empty with busyIn := [true] } }

/-- After a refresh of group 0: IDLE, the next group 1. -/
def afterOne : State := { start 1 [] with seq := 1#2, trace := [.pin .oe true] }

theorem noReset_of {s : State} (h : s.env.turns = [] ∨ s.env.turns = [.engine] ∨ s.env.turns = [.port]) : NoReset s := by
  intro u hu c
  rcases h with h | h | h <;> simp [h] at hu
  · simp [hu]
  · simp [hu]

theorem witness_WordsOfEachPatternDecode :
    (0x21FFFFFF#32).toNat / 2 ^ 25 = 0b0010000 ∧ (0x20000000#32).toNat / 2 ^ 25 = 0b0010000 ∧
    (0x30FFFFFF#32).toNat / 2 ^ 24 = 0b00110000 ∧ (0x30000000#32).toNat / 2 ^ 24 = 0b00110000 := by decide

theorem witness_DecodeOfEncodeIsTheCommand : Instr.refresh.wellFormed = true ∧
    (Instr.setPixel 255 255 255 true).wellFormed = true ∧ (Instr.getPixel 0 255 0).wellFormed = true := by decide

theorem witness_EncodeOfDecodeIsTheWord : decode 0x10000000#32 = .ok .refresh ∧
    decode 0x21FFFFFF#32 = .ok (.setPixel 255 255 255 true) ∧ decode 0x30FF00FF#32 = .ok (.getPixel 255 0 255) := by decide

/-- A word of each illegal case, where OP meets a legal one, and two legal words. -/
theorem witness_IllegalWordsRespondAndDoNothing : IllegalCase 0x0FFFFFFF#32 ∧ IllegalCase 0x40000000#32 ∧
    IllegalCase 0x1FFFFFFF#32 ∧ IllegalCase 0x22000000#32 ∧ IllegalCase 0x31000000#32 ∧
    ¬IllegalCase 0x10000000#32 ∧ ¬IllegalCase 0x21FFFFFF#32 := by
  refine ⟨?_, ?_, ?_, ?_, ?_, ?_, ?_⟩ <;> unfold IllegalCase <;> decide

/-- A word that decodes, one that is illegal, and the engine's turn. -/
theorem witness_StepRunsTheDecodedCommand :
    (nextMove offered = .port 0x2100000C#32 ∧ decode 0x2100000C#32 = .ok (.setPixel 0 0 12 true)) ∧
    (nextMove ((atPhase .oeOff).withFetchWord 32 0) = .port 0#32 ∧ decode 0#32 = .error .reservedOp) ∧
    nextMove accepted = .engine := by decide

theorem witness_EveryEnabledAgentCanBeChosen :
    (NoReset offered ∧ offered.env.commands = [0x2100000C#32] ∧ offered.phase = .idle) ∧
    (NoReset accepted ∧ accepted.env.commands = [] ∧ accepted.phase ≠ .idle) ∧
    ((atPhase .oeOff).withFetchWord 32 0x2100000C).env.commands = [0x2100000C#32] ∧
    ((atPhase .oeOff).withFetchWord 32 0x2100000C).phase ≠ .idle :=
  ⟨⟨noReset_of (.inr (.inr rfl)), by decide, by decide⟩, ⟨noReset_of (.inr (.inl rfl)), by decide, by decide⟩,
    by decide, by decide⟩

theorem witness_IdleMachineWaitsForTheEnvironment :
    NoReset (start 1 []) ∧ (start 1 []).env.commands = [] ∧ (start 1 []).phase = .idle :=
  ⟨noReset_of (.inl rfl), by decide, by decide⟩

/-- Pixels at both ends of each range, with one panel and with 256. -/
theorem witness_InRangePixelIndexIsInTheBuffer :
    (Geometry (start 256 []) ∧ inRange (start 256 []) 255 31 15 = true) ∧
    (Geometry (start 1 []) ∧ inRange (start 1 []) 0 0 0 = true) :=
  ⟨⟨geometry_start [] (by decide) (by decide), by decide⟩, ⟨geometry_start [] (by decide) (by decide), by decide⟩⟩

theorem witness_PixelsMapOneToOneOntoTheBits : Geometry (start 1 []) ∧ inRange (start 1 []) 0 31 15 = true ∧
    63 < (start 1 []).fbSize ∧ ¬64 < (start 1 []).fbSize :=
  ⟨geometry_start [] (by decide) (by decide), by decide, by decide, by decide⟩

/-- The last pixel, and one past each bound. -/
theorem witness_SetPixelWritesItsByteOrRefusesTheRange :
    Geometry (start 1 []) ∧ ((31 < 32 ∧ 15 < 16 ∧ 0 < (start 1 []).params.panels) ∧
    ¬(32 < 32 ∧ 15 < 16 ∧ 0 < (start 1 []).params.panels) ∧ ¬(31 < 32 ∧ 16 < 16 ∧ 0 < (start 1 []).params.panels) ∧
    ¬(31 < 32 ∧ 15 < 16 ∧ 1 < (start 1 []).params.panels)) :=
  ⟨geometry_start [] (by decide) (by decide), by decide⟩

theorem witness_GetPixelRespondsItsBitOrRefusesTheRange :
    Geometry (start 256 []) ∧ ((31 < 32 ∧ 15 < 16 ∧ 255 < (start 256 []).params.panels) ∧
    ¬(255 < 32 ∧ 15 < 16 ∧ 0 < (start 256 []).params.panels)) :=
  ⟨geometry_start [] (by decide) (by decide), by decide⟩

theorem witness_SetPixelFrame :
    (GoesOn (exec (.setPixel 0 31 15 true) (start 1 [])) ∧ 0 ≠ pixelIndex (start 1 []) 0 31 15) ∧
    (GoesOn (exec (.setPixel 0 32 15 true) (start 1 [])) ∧ inRange (start 1 []) 0 32 15 = false) :=
  ⟨⟨goesOn_of (by decide), by decide⟩, ⟨goesOn_of (by decide), by decide⟩⟩

theorem witness_SetPixelKeepsEveryOtherBit : GoesOn (exec (.setPixel 0 31 15 true) (start 1 [])) ∧
    ¬(63 = pixelIndex (start 1 []) 0 31 15 ∧ 7 = 7 - 31 % 8) :=
  ⟨goesOn_of (by decide), by decide⟩

theorem witness_GetPixelFrame : GoesOn (exec (.getPixel 0 31 15) (start 1 [])) ∧
    GoesOn (exec (.getPixel 1 0 0) (start 1 [])) :=
  ⟨goesOn_of (by decide), goesOn_of (by decide)⟩

/-- The same pixel and another one of the same byte. -/
theorem witness_GetPixelAfterSetPixel : Geometry (start 1 []) ∧ inRange (start 1 []) 0 31 15 = true ∧
    inRange (start 1 []) 0 30 15 = true ∧ GoesOn (exec (.setPixel 0 31 15 true) (start 1 [])) :=
  ⟨geometry_start [] (by decide) (by decide), by decide, by decide, goesOn_of (by decide)⟩

theorem witness_RefreshStartsOrFollowsTheOverlapPolicy : (start 1 []).phase = .idle ∧
    ((atPhase .check).phase ≠ .idle ∧ (atPhase .check).params.overlap = .drop) ∧
    ((queuedAt .oeOn).phase ≠ .idle ∧ (queuedAt .oeOn).params.overlap = .queue1) := by decide

theorem witness_QueuedTriggerHasDepthOne :
    ((queuedAt .oeOn).params.overlap = .queue1 ∧ (queuedAt .oeOn).phase = .oeOn ∧ (queuedAt .oeOn).pending = true) ∧
    ((queuedAt .check).params.overlap = .queue1 ∧ (queuedAt .check).phase = .check ∧
      busyValue (queuedAt .check) = true ∧ (queuedAt .check).pending = true) := by decide

/-- Each of the four ways out of CHECK. -/
theorem witness_CheckSkipsOrGoesOn :
    ((atPhase .check).phase = .check ∧
      ({ atPhase .check with params := { launch 1 .drop with hasBusyInput := false } } : State).params.hasBusyInput = false) ∧
    ((queuedAt .check).phase = .check ∧ busyValue (queuedAt .check) = true ∧ (queuedAt .check).pending = true) ∧
    (busyValue { queuedAt .check with pending := false } = true) ∧
    (accepted.phase = .check ∧ busyValue accepted = false ∧ accepted.initDone = false) ∧
    (busyValue { accepted with initDone := true } = false) := by decide

theorem witness_BusyDrawFollowsTheInput : accepted.params.hasBusyInput = true ∧ accepted.env.busyIn = [false] ∧
    ({ accepted with params := { launch 1 .drop with hasBusyInput := false } } : State).params.hasBusyInput = false := by
  decide

/-- A CHECK that goes to CFG_FREQ, a step with the transport configured, and the two micro-steps themselves. -/
theorem witness_LazyInitEmitsClockThenMode : next (microStep accepted) (·.phase) = some .cfgFreq ∧
    (GoesOn (step lastByte) ∧ nextMove lastByte = .engine ∧ lastByte.initDone = true) ∧
    (atPhase .cfgFreq).phase = .cfgFreq ∧ (atPhase .cfgMode).phase = .cfgMode :=
  ⟨by decide, ⟨goesOn_of (by decide), by decide, by decide⟩, by decide, by decide⟩

/-- The first and the last byte of a transfer. -/
theorem witness_ShiftEmitsItsByteAndMovesOn :
    (Geometry (start 1 []) ∧ (atPhase (.shift 0 0)).phase = .shift 0 0 ∧ 0 < (atPhase (.shift 0 0)).rowsize) ∧
    (Geometry lastByte ∧ lastByte.phase = .shift 3 3 ∧ 3 < lastByte.rowsize ∧ 3 = lastByte.rowsize - 1) :=
  ⟨⟨geometry_start [] (by decide) (by decide), by decide, by decide⟩,
    ⟨inv_lastByte.geometry, by decide, by decide, by decide⟩⟩

theorem witness_PinMicroStepsWriteTheirLine :
    (GoesOn (step lastByte) ∧ lastByte.latch = false ∧ lastByte.phase ≠ .latchHi) ∧
    (Inv (atRow .rowA) ∧ (atRow .rowA).phase = .rowA) ∧ (Inv (atRow .rowB) ∧ (atRow .rowB).phase = .rowB) ∧
    (RowLines (atRow .rowB) ∧ GoesOn (microStep (atRow .rowB))) ∧
    (atPhase .oeOff).phase = .oeOff ∧ (atPhase .latchHi).phase = .latchHi ∧ (atPhase .latchLo).phase = .latchLo :=
  ⟨⟨goesOn_of (by decide), by decide, by decide⟩, ⟨inv_atRow (.inl rfl), rfl⟩, ⟨inv_atRow (.inr rfl), rfl⟩,
    ⟨⟨by decide, by decide, by decide, by decide⟩, goesOn_of (by decide)⟩, rfl, rfl, rfl⟩

theorem witness_AdvanceMovesToTheNextGroup : next (step (atPhase .advance)) (·.seq) = some 1#2 ∧
    (atPhase .advance).seq = 0#2 ∧ (atPhase .advance).phase = .advance := by decide

theorem witness_OutputIsReenabledAtTheEnd : next (microStep (atPhase .rowA)) (·.phase) = some .rowB ∧
    next (microStep (atPhase .rowB)) (·.phase) = some .advance ∧
    next (microStep (atPhase .advance)) (·.phase) = some .oeOn ∧ (atEnd.phase = .oeOn ∧ atEnd.pending = false) ∧
    ((queuedAt .oeOn).phase = .oeOn ∧ (queuedAt .oeOn).pending = true) := by decide

/-- A step of each kind that SeqChangesOnlyAtAdvance tells apart. -/
theorem witness_SeqChangesOnlyAtAdvance : GoesOn (step offered) ∧
    (GoesOn (step (atPhase .advance)) ∧ nextMove (atPhase .advance) = .engine) ∧ GoesOn (step (resetAsked 1)) :=
  ⟨goesOn_of (by decide), ⟨goesOn_of (by decide), by decide⟩, goesOn_of (by decide)⟩

/-- A step that is no reset, at a phase with the engine to step: it goes on and the engine takes it. -/
theorem engine_step_at (x : Phase) (hx : nextMove (atPhase x) = .engine)
    (h : next (step (atPhase x)) (fun _ => true) = some true) :
    GoesOn (step (atPhase x)) ∧ (∀ c, nextMove (atPhase x) ≠ .reset c) :=
  ⟨goesOn_of h, fun c hc => by rw [hx] at hc; cases hc⟩

theorem witness_OutputEnableIsWrittenByItsTwoMicroSteps :
    (GoesOn (step (atPhase .oeOff)) ∧ ∀ c, nextMove (atPhase .oeOff) ≠ .reset c) ∧
    (GoesOn (step (atPhase .oeOn)) ∧ ∀ c, nextMove (atPhase .oeOn) ≠ .reset c) ∧
    (GoesOn (step (atPhase .rowA)) ∧ ∀ c, nextMove (atPhase .rowA) ≠ .reset c) :=
  ⟨engine_step_at _ (by decide) (by decide), engine_step_at _ (by decide) (by decide),
    engine_step_at _ (by decide) (by decide)⟩

theorem witness_LatchAndRowLinesAreWrittenByTheirMicroSteps :
    (GoesOn (step (atPhase .latchHi)) ∧ ∀ c, nextMove (atPhase .latchHi) ≠ .reset c) ∧
    (GoesOn (step (atPhase .latchLo)) ∧ ∀ c, nextMove (atPhase .latchLo) ≠ .reset c) ∧
    (GoesOn (step (atPhase .rowA)) ∧ ∀ c, nextMove (atPhase .rowA) ≠ .reset c) ∧
    (GoesOn (step (atPhase .rowB)) ∧ ∀ c, nextMove (atPhase .rowB) ≠ .reset c) :=
  ⟨engine_step_at _ (by decide) (by decide), engine_step_at _ (by decide) (by decide),
    engine_step_at _ (by decide) (by decide), engine_step_at _ (by decide) (by decide)⟩

theorem witness_InitDoneIsSetOnceByTheLazyInit :
    GoesOn (step (atPhase .cfgMode)) ∧ ∀ c, nextMove (atPhase .cfgMode) ≠ .reset c :=
  engine_step_at _ (by decide) (by decide)

theorem witness_GeometryIsFixedBetweenResets : GoesOn (step (atPhase .oeOn)) ∧ ∀ c, nextMove (atPhase .oeOn) ≠ .reset c :=
  engine_step_at _ (by decide) (by decide)

theorem witness_WhatAWordOnThePortMayChange : GoesOn (runWord 0x10000000#32 (start 1 [])) ∧
    GoesOn (runWord 0x10000000#32 (atPhase .oeOff)) ∧ GoesOn (runWord 0#32 (start 1 [])) :=
  ⟨goesOn_of (by decide), goesOn_of (by decide), goesOn_of (by decide)⟩

/-- SETPIXEL through the port changes its byte. -/
theorem witness_BytesChangeOnlyBySetPixelOrReset :
    next (step offered) (·.fbByte 48) = some 0x80#8 ∧ offered.fbByte 48 = 0#8 := by decide

theorem witness_MicroStepsWriteNoByteAndNoResponse : GoesOn (microStep lastByte) ∧ GoesOn (microStep accepted) :=
  ⟨goesOn_of (by decide), goesOn_of (by decide)⟩

theorem witness_EveryWordButRefreshAnswersOnce :
    (GoesOn (runWord 0x10000000#32 (start 1 [])) ∧ decode 0x10000000#32 = .ok .refresh) ∧
    (GoesOn (runWord 0x3000000C#32 (start 1 [])) ∧ decode 0x3000000C#32 ≠ .ok .refresh) :=
  ⟨⟨goesOn_of (by decide), by decide⟩, ⟨goesOn_of (by decide), by decide⟩⟩

theorem witness_BusyIsSampledOnlyAtCheck : lastByte.phase ≠ .check ∧
    nextMove ((atPhase .check).withFetchWord 32 0x2100000C) ≠ .engine := by decide

/-- The invariant and a step that goes on, for a word, a micro-step and a reset. -/
theorem witness_EveryStepKeepsTheInvariant : (Inv offered ∧ GoesOn (step offered)) ∧
    (Inv lastByte ∧ GoesOn (step lastByte)) ∧ (Inv (resetAsked 256) ∧ GoesOn (step (resetAsked 256))) :=
  ⟨⟨inv_offered, goesOn_of (by decide)⟩, ⟨inv_lastByte, goesOn_of (by decide)⟩,
    ⟨inv_resetAsked 256, goesOn_of (by decide)⟩⟩

theorem witness_ResetMeetsEveryInvariant : (1 ≤ (launch 1 .drop).panels ∧ (launch 1 .drop).panels ≤ 256) ∧
    (1 ≤ (launch 256 .queue1).panels ∧ (launch 256 .queue1).panels ≤ 256) := by decide

/-- The count of refreshes before and after OE_ON. -/
theorem witness_EveryStepKeepsSeqTheCountOfRefreshes : (SeqTracks atEnd ∧ GoesOn (step atEnd)) ∧
    (SeqTracks afterOne ∧ GoesOn (step afterOne)) :=
  ⟨⟨by unfold SeqTracks; decide, goesOn_of (by decide)⟩, ⟨by unfold SeqTracks; decide, goesOn_of (by decide)⟩⟩

theorem witness_EveryStepKeepsTheTraceInPattern : (Inv accepted ∧ TraceInPattern accepted ∧ GoesOn (step accepted)) ∧
    (Inv offered ∧ TraceInPattern offered ∧ GoesOn (step offered)) :=
  ⟨⟨inv_accepted, by unfold TraceInPattern; decide, goesOn_of (by decide)⟩,
    ⟨inv_offered, by unfold TraceInPattern; decide, goesOn_of (by decide)⟩⟩

theorem witness_EveryStepKeepsTheRowLines : (RowLines atEnd ∧ GoesOn (step atEnd)) ∧
    (RowLines (atPhase .rowB) ∧ GoesOn (step (atPhase .rowB))) :=
  ⟨⟨⟨by decide, by decide, by decide, by decide⟩, goesOn_of (by decide)⟩,
    ⟨⟨by decide, by decide, by decide, by decide⟩, goesOn_of (by decide)⟩⟩

theorem witness_LitGroupIsTheOneBeforeSeq : RowLines afterOne ∧ afterOne.phase = .idle ∧ 0 < completed afterOne :=
  ⟨⟨by decide, by decide, by decide, by decide⟩, by decide, by decide⟩

/-- A state that goes on, and one whose reset is refused. -/
theorem witness_NothingStopsTheBlock : Inv lastByte ∧ (Inv (resetAsked 257) ∧
    nextMove (resetAsked 257) = .reset (launch 257 .drop) ∧ ¬(launch 257 .drop).panels ≤ 256) :=
  ⟨inv_lastByte, inv_resetAsked 257, by decide, by decide⟩

theorem witness_ResetStepAppliesTheResetValues :
    ((resetAsked 257).env.turns = [.reset (launch 257 .drop)] ∧ ¬(launch 257 .drop).panels ≤ 256) ∧
    ((resetAsked 256).env.turns = [.reset (launch 256 .drop)] ∧
      1 ≤ (launch 256 .drop).panels ∧ (launch 256 .drop).panels ≤ 256) ∧
    ((resetAsked 1).env.turns = [.reset (launch 1 .drop)] ∧
      1 ≤ (launch 1 .drop).panels ∧ (launch 1 .drop).panels ≤ 256) ∧
    ((resetAsked 0).env.turns = [.reset (launch 0 .drop)] ∧ ¬1 ≤ (launch 0 .drop).panels) := by decide

theorem witness_RefreshEmitsItsTraceAndCompletes : Inv accepted ∧ NoReset accepted ∧ accepted.env.commands = [] ∧
    accepted.phase = .check ∧ busyValue (useTurn accepted) = false :=
  ⟨inv_accepted, noReset_of (.inr (.inl rfl)), by decide, by decide, by decide⟩

theorem witness_LatchedDataAgreeWithTheSelectedGroup : Inv accepted ∧ NoReset accepted ∧ accepted.env.commands = [] ∧
    accepted.phase = .check ∧ busyValue (useTurn accepted) = false :=
  witness_RefreshEmitsItsTraceAndCompletes

theorem witness_EachMicroStepLeavesOneFewer :
    (Inv lastByte ∧ lastByte.phase ≠ .idle ∧ lastByte.phase ≠ .check ∧ GoesOn (microStep lastByte)) ∧
    (Inv atEnd ∧ atEnd.phase ≠ .idle ∧ atEnd.phase ≠ .check ∧ GoesOn (microStep atEnd)) :=
  ⟨⟨inv_lastByte, by decide, by decide, goesOn_of (by decide)⟩, ⟨inv_atEnd, by decide, by decide, goesOn_of (by decide)⟩⟩

theorem witness_ByteStreamInClosedForm :
    Geometry (start 2 []) ∧ 0 < 16 * (start 2 []).params.panels ∧ 31 < 16 * (start 2 []).params.panels :=
  ⟨geometry_start [] (by decide) (by decide), by decide, by decide⟩

theorem witness_FourRefreshesReadEveryByteOnce :
    Geometry (start 2 []) ∧ 7 < (start 2 []).rowsize ∧ 127 < (start 2 []).fbSize :=
  ⟨geometry_start [] (by decide) (by decide), by decide, by decide⟩

/-- `SETPIXEL 0, 0, 0, 2` says its operands, and that `on` is the least outside {0, 1}. -/
theorem setPixelTwo_says :
    LineSays "SETPIXEL 0, 0, 0, 2".toList ['S', 'E', 'T', 'P', 'I', 'X', 'E', 'L'] [0, 0, 0, 2] :=
  ⟨[], "SETPIXEL".toList, " 0, 0, 0, 2".toList, stripComment_eq.1 (by decide), blanks_nil, by decide,
    fun c h => by cases h; rfl, parseOperands_eq_some.1 (by decide)⟩

/-- A mnemonic in lower case with a comment spells its command; 255 assembles and 256 does not; `on` is 1, and 2. -/
theorem witness_AssembledWordsDecodeToTheirLine :
    LineSpells "getpixel 0, 0xFF, 255 ; far".toList (.getPixel 0 255 255) ∧
    (parseLine "GETPIXEL 0, 255, 0".toList = .command (.getPixel 0 255 0) ∧
      (Instr.getPixel 0 255 0).wellFormed = true) ∧
    assembleLine "SETPIXEL 0, 31, 15, 1".toList = .word 0x21001F0F#32 ∧
    (parseLine "GETPIXEL 0, 256, 0".toList = .command (.getPixel 0 256 0) ∧
      (Instr.getPixel 0 256 0).wellFormed = false) ∧
    (LineSays "SETPIXEL 0, 0, 0, 2".toList ['S', 'E', 'T', 'P', 'I', 'X', 'E', 'L'] [0, 0, 0, 2] ∧ 1 < 2) :=
  ⟨⟨[], "getpixel".toList, " 0, 0xFF, 255 ".toList, stripComment_eq.1 (by decide), blanks_nil, by decide,
    fun c h => by cases h; rfl, parseOperands_eq_some.1 (by decide)⟩,
    by decide, by decide, by decide, setPixelTwo_says, by decide⟩

end Sys2Proof.Tests
end

section
/-! PROOFS. State family (10_state.md): what one step can do to the output-enable latch, and the reset values. -/

namespace Sys2Proof.Machine

variable {s t : State}

/-! ### What the shared operations leave unchanged -/

@[simp] theorem useTurn_oe (s : State) : (useTurn s).oe = s.oe := by
  obtain ⟨e, he, -⟩ := useTurn_spec s
  simp [he]

@[simp] theorem useTurn_phase (s : State) : (useTurn s).phase = s.phase := by
  obtain ⟨e, he, -⟩ := useTurn_spec s
  simp [he]

@[simp] theorem takeWord_oe (s : State) : (takeWord s).oe = s.oe := State.setEnv_oe s _

@[simp] theorem busyTaken_oe (s : State) : (busyTaken s).oe = s.oe := by
  obtain ⟨e, he, -⟩ := busyTaken_spec s
  simp [he]

@[simp] theorem finish_oe (s : State) : (finish s).oe = s.oe := by
  rcases finish_cases s with ⟨-, hf⟩ | ⟨-, hf⟩ <;> simp [hf]

@[simp] theorem afterCheck_oe (s : State) : (afterCheck s).oe = s.oe := by
  rcases afterCheck_cases s with ⟨-, ha⟩ | ⟨-, ha⟩ <;> simp [ha]

/-! ### What a word on the port can change -/

/-- The only fields that a word on the port may change: `fb`, `pending`, `phase` and the responses (R101, R102,
R140 to R142, R181). -/
def PortFrame (s t : State) : Prop :=
  ∃ (m : List Host.Cell) (v : Bool) (x : Phase) (r : List Word),
    t = { s with fb := m, pending := v, phase := x, responses := r }

theorem execRefresh_portFrame (h : execRefresh s = .next t) : PortFrame s t := by
  rcases execRefresh_cases s with ⟨-, he⟩ | ⟨-, he⟩
  · cases he.symm.trans h
    exact ⟨_, _, _, _, rfl⟩
  · cases he.symm.trans h
    rcases overlapTrigger_cases s with ⟨-, ho⟩ | ⟨-, ho⟩
    · exact ⟨_, _, _, _, ho⟩
    · exact ⟨_, _, _, _, ho⟩

theorem execSetPixel_portFrame {p x y : Nat} {on : Bool} (h : execSetPixel p x y on s = .next t) : PortFrame s t := by
  rcases execSetPixel_next h with ⟨-, -, rfl⟩ | ⟨-, rfl⟩
  · exact ⟨_, _, _, _, rfl⟩
  · exact ⟨_, _, _, _, rfl⟩

theorem execGetPixel_portFrame {p x y : Nat} (h : execGetPixel p x y s = .next t) : PortFrame s t := by
  rcases execGetPixel_next h with ⟨-, -, rfl⟩ | ⟨-, rfl⟩
  · exact ⟨_, _, _, _, rfl⟩
  · exact ⟨_, _, _, _, rfl⟩

theorem exec_portFrame {i : Instr} (h : exec i s = .next t) : PortFrame s t := by
  cases i with
  | refresh => exact execRefresh_portFrame h
  | setPixel p x y on => exact execSetPixel_portFrame h
  | getPixel p x y => exact execGetPixel_portFrame h

theorem runWord_portFrame {w : Word} (h : runWord w s = .next t) : PortFrame s t := by
  rcases runWord_cases w s with ⟨r, -, hw⟩ | ⟨i, -, hw⟩
  · cases hw.symm.trans h
    exact ⟨_, _, _, _, rfl⟩
  · exact exec_portFrame (hw.symm.trans h)

theorem PortFrame.oe_eq (h : PortFrame s t) : t.oe = s.oe := by
  obtain ⟨m, v, x, r, rfl⟩ := h
  rfl

/-! ### Output enable -/

theorem levelOf_true (v : Bool) : levelOf true v = v := rfl

theorem levelOf_false (v : Bool) : levelOf false v = !v := rfl

/-- A skipped refresh is the case CHECK, where neither `finish` nor `afterCheck` writes `oe` (R28, R143). -/
theorem microStep_oe (h : microStep s = .next t) :
    t.oe = if s.phase = .oeOff then false else if s.phase = .oeOn then true else s.oe := by
  rcases microStep_next_cases h with ⟨hp, rfl⟩ | ⟨hp, rfl⟩ | ⟨hp, rfl⟩ | ⟨hp, rfl⟩ | ⟨i, k, hp, -, rfl⟩ | ⟨hp, rfl⟩ |
    ⟨hp, rfl⟩ | ⟨hp, rfl⟩ | ⟨hp, rfl⟩ | ⟨hp, rfl⟩ | ⟨hp, rfl⟩ | ⟨hp, rfl⟩
  case inr.inl => split <;> simp [hp]
  all_goals simp [hp]

theorem step_oe (h : step s = .next t) (hr : ∀ c, nextMove s ≠ .reset c) :
    t.oe = if nextMove s = .engine ∧ s.phase = .oeOff then false
      else if nextMove s = .engine ∧ s.phase = .oeOn then true else s.oe := by
  rcases step_next_cases h with ⟨hp, -, rfl⟩ | ⟨w, -, hm, -, hw⟩ | ⟨hm, -, hs⟩ | ⟨c, hm, -⟩
  · simp [hp]
  · simp [hm, (runWord_portFrame hw).oe_eq]
  · simp [hm, microStep_oe hs]
  · exact absurd hm (hr c)

/-- Settles O29: the reset value and the pin's level are read off the definitions, and the writers come from `step_oe`. -/
theorem outputEnableIsWrittenByItsTwoMicroSteps : Obligations.OutputEnableIsWrittenByItsTwoMicroSteps := by
  refine ⟨fun _ _ _ => rfl, fun s => ⟨fun hl => ?_, fun hl => ?_⟩, fun s t => step_oe⟩
  · rw [oePin, hl, levelOf_true]
  · rw [oePin, hl, levelOf_false]

/-! ### The reset values -/

theorem rowsizeOf_eq (panels : Nat) : rowsizeOf panels = 4 * panels := Nat.mul_comm panels 4

theorem row1Of_eq (panels : Nat) : row1Of panels = 16 * panels := by
  rw [row1Of, rowsizeOf_eq]
  omega

theorem row2Of_eq (panels : Nat) : row2Of panels = 32 * panels := by
  rw [row2Of, rowsizeOf_eq]
  omega

theorem row3Of_eq (panels : Nat) : row3Of panels = 48 * panels := by
  rw [row3Of, rowsizeOf_eq]
  omega

theorem fbSizeOf_eq (panels : Nat) : fbSizeOf panels = 64 * panels := rfl

/-- Nothing is written after a reset, so every byte is the draw's (R201). -/
theorem State.resetWith_fbByte (c : Params) (n : Nat) (e : Env) (j : Nat) :
    (State.resetWith c n e).fbByte j = Config.resetByte n j := rfl

/-- Settles O46: the constants by the geometry's closed forms, the bytes by `resetWith_fbByte`, the rest as written in
`State.resetWith`. -/
theorem resetStateHoldsTheResetValues : Obligations.ResetStateHoldsTheResetValues :=
  ⟨rfl, rfl, rfl, rfl, rfl, rfl, rfl, rfl, rowsizeOf_eq _, row1Of_eq _, row2Of_eq _, row3Of_eq _, fbSizeOf_eq _,
    State.resetWith_fbByte _ _ _, rfl, rfl⟩

end Sys2Proof.Machine
end

section
/-! PROOFS. Encoding family (30_encoding.md): which words decode to which command, and the row-select encoding. -/

namespace Sys2Proof

open Sys2Proof.Machine Sys2Proof.Safety

/-! ### The words of each command, as numbers -/

/-- A field holds a value exactly when the word's quotient and remainder do. -/
theorem extractField_eq_iff (w : Word) (lo : Nat) {len : Nat} (v : BitVec len) :
    w.extractLsb' lo len = v ↔ w.toNat / 2 ^ lo % 2 ^ len = v.toNat := by
  rw [← BitVec.toNat_inj, extractField_toNat]

theorem opField_eq_iff (w : Word) (op : BitVec 4) : opField w = op ↔ w.toNat / 2 ^ 28 = op.toNat := by
  rw [← BitVec.toNat_inj, opField_toNat]

/-- OP = 1 and zeros below it make one word (R72). -/
theorem refresh_fields_iff (w : Word) :
    opField w = 1#4 ∧ w.extractLsb' 0 28 = 0#28 ↔ w = 0x10000000#32 := by
  rw [opField_eq_iff, extractField_eq_iff, ← BitVec.toNat_inj]
  simp only [BitVec.toNat_ofNat]
  omega

/-- OP = 2 and RSV = 0 make the pattern's top seven bits (R73). -/
theorem setPixel_fields_iff (w : Word) :
    opField w = 2#4 ∧ rsvField w = 0#3 ↔ w.toNat / 2 ^ 25 = 0b0010000 := by
  rw [opField_eq_iff, rsvField, extractField_eq_iff]
  simp only [BitVec.toNat_ofNat]
  omega

/-- OP = 3, RSV = 0 and ON = 0 make the pattern's top eight bits (R74). -/
theorem getPixel_fields_iff (w : Word) :
    opField w = 3#4 ∧ w.extractLsb' 24 4 = 0#4 ↔ w.toNat / 2 ^ 24 = 0b00110000 := by
  rw [opField_eq_iff, extractField_eq_iff]
  simp only [BitVec.toNat_ofNat]
  omega

theorem decode_refresh_word : decode 0x10000000#32 = .ok .refresh := rfl

theorem decode_of_setPixel_pattern {w : Word} (h : w.toNat / 2 ^ 25 = 0b0010000) :
    decode w = .ok (.setPixel (panelField w) (xField w) (yField w) (onField w)) := by
  obtain ⟨hop, hrsv⟩ := (setPixel_fields_iff w).2 h
  simp [decode, decodeSetPixel, hop, hrsv]

theorem decode_of_getPixel_pattern {w : Word} (h : w.toNat / 2 ^ 24 = 0b00110000) :
    decode w = .ok (.getPixel (panelField w) (xField w) (yField w)) := by
  obtain ⟨hop, hzero⟩ := (getPixel_fields_iff w).2 h
  simp [decode, decodeGetPixel, hop, hzero]

/-- The decoder accepts the words of the three patterns and no others, with the operands in their fields (R72 to R75). -/
theorem decode_eq_ok_iff {w : Word} {i : Instr} :
    decode w = .ok i ↔
      (w = 0x10000000#32 ∧ i = .refresh) ∨
      (w.toNat / 2 ^ 25 = 0b0010000 ∧ i = .setPixel (panelField w) (xField w) (yField w) (onField w)) ∨
      (w.toNat / 2 ^ 24 = 0b00110000 ∧ i = .getPixel (panelField w) (xField w) (yField w)) := by
  constructor
  · intro h
    rcases decode_ok_cases h with ⟨hop, hz, hi⟩ | ⟨hop, hz, hi⟩ | ⟨hop, hz, hi⟩
    · exact .inl ⟨(refresh_fields_iff w).1 ⟨hop, hz⟩, hi⟩
    · exact .inr (.inl ⟨(setPixel_fields_iff w).1 ⟨hop, hz⟩, hi⟩)
    · exact .inr (.inr ⟨(getPixel_fields_iff w).1 ⟨hop, hz⟩, hi⟩)
  · rintro (⟨rfl, rfl⟩ | ⟨h, rfl⟩ | ⟨h, rfl⟩)
    · exact decode_refresh_word
    · exact decode_of_setPixel_pattern h
    · exact decode_of_getPixel_pattern h

/-! ### The fields of a packed word -/

section PackWord

variable (op : BitVec 4) (on : Bool) (p x y : Nat)

theorem panelField_packWord : panelField (packWord op on p x y) = p % 256 := by
  rw [panelField_eq, packWord_toNat]
  omega

theorem xField_packWord : xField (packWord op on p x y) = x % 256 := by
  rw [xField_eq, packWord_toNat]
  omega

theorem yField_packWord : yField (packWord op on p x y) = y % 256 := by
  rw [yField_eq, packWord_toNat]
  omega

theorem onField_packWord : onField (packWord op on p x y) = on := by
  have toNat_inj : ∀ a b : Bool, a.toNat = b.toNat → a = b := by decide
  have hon := Bool.toNat_le on
  apply toNat_inj
  rw [onField_toNat, packWord_toNat]
  omega

theorem packWord_topSeven : (packWord op on p x y).toNat / 2 ^ 25 = op.toNat * 2 ^ 3 := by
  have hon := Bool.toNat_le on
  rw [packWord_toNat]
  omega

theorem packWord_topEight : (packWord op on p x y).toNat / 2 ^ 24 = op.toNat * 2 ^ 4 + on.toNat := by
  rw [packWord_toNat]
  omega

end PackWord

/-! ### The round trip -/

theorem fitsField_iff (v : Nat) : fitsField v = true ↔ v < 256 := by
  rw [fitsField, decide_eq_true_iff, Nat.lt_succ_iff]

theorem setPixel_wellFormed_iff {p x y : Nat} {on : Bool} :
    (Instr.setPixel p x y on).wellFormed = true ↔ p < 256 ∧ x < 256 ∧ y < 256 := by
  simp only [Instr.wellFormed, Bool.and_eq_true, fitsField_iff, and_assoc]

theorem getPixel_wellFormed_iff {p x y : Nat} :
    (Instr.getPixel p x y).wellFormed = true ↔ p < 256 ∧ x < 256 ∧ y < 256 := by
  simp only [Instr.wellFormed, Bool.and_eq_true, fitsField_iff, and_assoc]

/-- Settles O3: each encoded word has its command's pattern, and its fields give back the operands that fit them. -/
theorem decodeOfEncodeIsTheCommand : Obligations.DecodeOfEncodeIsTheCommand := by
  intro i hwf
  cases i with
  | refresh => exact decode_refresh_word
  | setPixel p x y on =>
    obtain ⟨hp, hx, hy⟩ := setPixel_wellFormed_iff.1 hwf
    rw [encode, decode_of_setPixel_pattern (packWord_topSeven _ on p x y), panelField_packWord, xField_packWord,
      yField_packWord, onField_packWord, Nat.mod_eq_of_lt hp, Nat.mod_eq_of_lt hx, Nat.mod_eq_of_lt hy]
  | getPixel p x y =>
    obtain ⟨hp, hx, hy⟩ := getPixel_wellFormed_iff.1 hwf
    rw [encode, decode_of_getPixel_pattern (packWord_topEight _ false p x y), panelField_packWord, xField_packWord,
      yField_packWord, Nat.mod_eq_of_lt hp, Nat.mod_eq_of_lt hx, Nat.mod_eq_of_lt hy]

/-! ### The patterns -/

theorem decode_eq_refresh_iff (w : Word) : decode w = .ok .refresh ↔ w = 0x10000000#32 := by
  simp [decode_eq_ok_iff]

theorem exists_decode_setPixel_iff (w : Word) :
    (∃ p x y on, decode w = .ok (.setPixel p x y on)) ↔ w.toNat / 2 ^ 25 = 0b0010000 := by
  constructor
  · rintro ⟨p, x, y, on, h⟩
    rcases decode_eq_ok_iff.1 h with ⟨-, hi⟩ | ⟨hw, -⟩ | ⟨-, hi⟩
    · cases hi
    · exact hw
    · cases hi
  · exact fun h => ⟨_, _, _, _, decode_of_setPixel_pattern h⟩

theorem exists_decode_getPixel_iff (w : Word) :
    (∃ p x y, decode w = .ok (.getPixel p x y)) ↔ w.toNat / 2 ^ 24 = 0b00110000 := by
  constructor
  · rintro ⟨p, x, y, h⟩
    rcases decode_eq_ok_iff.1 h with ⟨-, hi⟩ | ⟨-, hi⟩ | ⟨hw, -⟩
    · cases hi
    · cases hi
    · exact hw
  · exact fun h => ⟨_, _, _, decode_of_getPixel_pattern h⟩

/-- Settles O2: `decode_eq_ok_iff` for each command, with the coordinate fields as quotients and remainders. -/
theorem wordsOfEachPatternDecode : Obligations.WordsOfEachPatternDecode := by
  intro w
  refine ⟨decode_eq_refresh_iff w, exists_decode_setPixel_iff w, exists_decode_getPixel_iff w, fun h => ?_, fun h => ?_⟩
  · rw [decode_of_setPixel_pattern h, panelField_eq, xField_eq, yField_eq, onField]
  · rw [decode_of_getPixel_pattern h, panelField_eq, xField_eq, yField_eq]

/-! ### Illegal words -/

theorem exists_decode_ok_iff (w : Word) :
    (∃ i, decode w = .ok i) ↔
      w = 0x10000000#32 ∨ w.toNat / 2 ^ 25 = 0b0010000 ∨ w.toNat / 2 ^ 24 = 0b00110000 := by
  simp only [decode_eq_ok_iff, exists_or, exists_and_left, exists_eq, and_true]

/-- The four cases of R76 are what the three patterns leave. -/
theorem illegalCase_iff (w : Word) : IllegalCase w ↔ ¬∃ i, decode w = .ok i := by
  rw [exists_decode_ok_iff, ← BitVec.toNat_inj, IllegalCase]
  simp only [BitVec.toNat_ofNat]
  omega

theorem responseWord_illegalCommand : responseWord .illegalCommand false = 2#32 := rfl

/-- What the port makes of a word that does not decode (R76, R181). -/
theorem runWord_of_not_decodes {w : Word} (h : ¬∃ i, decode w = .ok i) (s : State) :
    (∃ r, decode w = .error r) ∧ runWord w s = .next { s with responses := s.responses ++ [2#32] } := by
  rcases runWord_cases w s with ⟨r, hd, hw⟩ | ⟨i, hd, -⟩
  · rw [hw, State.respond, responseWord_illegalCommand]
    exact ⟨⟨r, hd⟩, rfl⟩
  · exact absurd ⟨i, hd⟩ h

/-- Settles O5: the illegal cases are the words that do not decode, and the port only adds the response to those. -/
theorem illegalWordsRespondAndDoNothing : Obligations.IllegalWordsRespondAndDoNothing := by
  intro w s
  rw [illegalCase_iff, not_not]
  exact ⟨fun h => runWord_of_not_decodes h s, id⟩

/-! ### The row-select pair -/

/-- Settles O27: the table's rows and the two bits by `rowSelect`'s definition, the sum group by group. -/
theorem rowSelectEncodesTheGroup : Obligations.RowSelectEncodesTheGroup := by
  refine ⟨rfl, rfl, rfl, rfl, fun q => ⟨rfl, ?_⟩⟩
  have bits : ∀ q : BitVec 2, q.toNat = (rowSelect q).1.toNat + 2 * (rowSelect q).2.toNat := by decide
  exact bits q

end Sys2Proof
end

section
/-! PROOFS. FrameBuffer family (40_framebuffer.md): SETPIXEL and GETPIXEL, in range and out of range. -/

namespace Sys2Proof.Machine

open Sys2Proof.Safety

variable {s : State} {p x y : Nat}

/-! ### The range check -/

theorem inRange_eq_false_iff : inRange s p x y = false ↔ ¬(x < 32 ∧ y < 16 ∧ p < s.params.panels) := by
  rw [← inRange_iff, Bool.not_eq_true]

/-- The bound of R100: the pixel's row y starts at y·ROWSIZE, at most fifteen rows in, and the pixel's byte lies within
that row. -/
theorem pixelIndex_lt_fbSize (hg : Geometry s) (hr : inRange s p x y = true) : pixelIndex s p x y < s.fbSize := by
  obtain ⟨hx, hy, hp⟩ := (inRange_iff s p x y).1 hr
  have hrows : y * s.rowsize ≤ 15 * s.rowsize := Nat.mul_le_mul_right _ (by omega)
  have hrow : s.rowsize = 4 * s.params.panels := hg.rowsize_eq
  have hsize : s.fbSize = 64 * s.params.panels := hg.fbSize_eq
  rw [pixelIndex]
  omega

/-! ### Responses -/

/-- An OUT_OF_RANGE response changes nothing but the response stream (R180, R181). -/
theorem respond_outOfRange_eq (s : State) :
    s.respond .outOfRange false = { s with responses := s.responses ++ [1#32] } := by
  rw [State.respond, responseWord_outOfRange]

/-- A successful GETPIXEL's response, with the pixel as a bit of its byte (R78, R102). -/
theorem responseWord_pixelOf (v : Byte) (x : Nat) :
    responseWord .ok (pixelOf v x) = if v.getLsbD (7 - x % 8) then 0x100#32 else 0#32 := by
  rw [pixelOf_eq_bit]
  cases v.getLsbD (7 - x % 8)
  · exact responseWord_ok_off
  · exact responseWord_ok_on

/-! ### SETPIXEL -/

/-- The state after a SETPIXEL that is in range (R101). -/
def pixelWritten (s : State) (p x y : Nat) (on : Bool) : State :=
  (s.setFb (Memory.write s.fb (pixelIndex s p x y) (withPixel (s.fbByte (pixelIndex s p x y)) x on))).respond .ok false

theorem pixelWritten_frame (s : State) (p x y : Nat) (on : Bool) :
    pixelWritten s p x y on =
      { s with fb := (pixelWritten s p x y on).fb, responses := s.responses ++ [0#32] } := by
  rw [← responseWord_ok_off]
  rfl

theorem pixelWritten_fbByte (s : State) (p x y : Nat) (on : Bool) (j : Nat) :
    (pixelWritten s p x y on).fbByte j =
      if j = pixelIndex s p x y then withPixel (s.fbByte (pixelIndex s p x y)) x on else s.fbByte j := by
  rw [pixelWritten, State.respond_fbByte, State.fbByte_write]

theorem exec_setPixel_inRange (on : Bool) (hg : Geometry s) (hr : inRange s p x y = true) :
    exec (.setPixel p x y on) s = .next (pixelWritten s p x y on) :=
  execSetPixel_inRange on hr (pixelIndex_lt_fbSize hg hr)

theorem exec_setPixel_outOfRange (on : Bool) (hr : inRange s p x y = false) :
    exec (.setPixel p x y on) s = .next { s with responses := s.responses ++ [1#32] } := by
  rw [← respond_outOfRange_eq]
  exact execSetPixel_outOfRange on hr

/-- Settles O12: in range the next state is `pixelWritten`, whose frame and bytes are the two lemmas about it. -/
theorem setPixelWritesItsByteOrRefusesTheRange : Obligations.SetPixelWritesItsByteOrRefusesTheRange := by
  intro s p x y on hg
  refine ⟨fun hr => ⟨pixelWritten s p x y on, ?_, pixelWritten_frame s p x y on, ?_, fun j hj => ?_⟩, fun hr => ?_⟩
  · exact exec_setPixel_inRange on hg ((inRange_iff s p x y).2 hr)
  · exact (pixelWritten_fbByte s p x y on _).trans (if_pos rfl)
  · exact (pixelWritten_fbByte s p x y on j).trans (if_neg hj)
  · exact exec_setPixel_outOfRange on (inRange_eq_false_iff.2 hr)

/-! ### GETPIXEL -/

theorem exec_getPixel_inRange (hg : Geometry s) (hr : inRange s p x y = true) :
    exec (.getPixel p x y) s = .next { s with responses := s.responses ++
      [if (s.fbByte (pixelIndex s p x y)).getLsbD (7 - x % 8) then 0x100#32 else 0#32] } := by
  rw [← responseWord_pixelOf]
  exact execGetPixel_inRange hr (pixelIndex_lt_fbSize hg hr)

theorem exec_getPixel_outOfRange (hr : inRange s p x y = false) :
    exec (.getPixel p x y) s = .next { s with responses := s.responses ++ [1#32] } := by
  rw [← respond_outOfRange_eq]
  exact execGetPixel_outOfRange hr

/-- Settles O15: the read is in the buffer by `pixelIndex_lt_fbSize`, and its pixel is the bit the response carries. -/
theorem getPixelRespondsItsBitOrRefusesTheRange : Obligations.GetPixelRespondsItsBitOrRefusesTheRange := by
  intro s p x y hg
  refine ⟨fun hr => ?_, fun hr => ?_⟩
  · exact exec_getPixel_inRange hg ((inRange_iff s p x y).2 hr)
  · exact exec_getPixel_outOfRange (inRange_eq_false_iff.2 hr)

end Sys2Proof.Machine
end

section
/-! PROOFS. RowSequencer family (41_row_sequencer.md): ADVANCE, and what one step can do to `seq`. -/

namespace Sys2Proof.Machine

variable {s t : State}

/-! ### What the shared operations leave unchanged -/

@[simp] theorem useTurn_seq (s : State) : (useTurn s).seq = s.seq := by
  obtain ⟨e, he, -⟩ := useTurn_spec s
  simp [he]

@[simp] theorem takeWord_seq (s : State) : (takeWord s).seq = s.seq := State.setEnv_seq s _

@[simp] theorem busyTaken_seq (s : State) : (busyTaken s).seq = s.seq := by
  obtain ⟨e, he, -⟩ := busyTaken_spec s
  simp [he]

@[simp] theorem finish_seq (s : State) : (finish s).seq = s.seq := by
  rcases finish_cases s with ⟨-, hf⟩ | ⟨-, hf⟩ <;> simp [hf]

@[simp] theorem afterCheck_seq (s : State) : (afterCheck s).seq = s.seq := by
  rcases afterCheck_cases s with ⟨-, ha⟩ | ⟨-, ha⟩ <;> simp [ha]

theorem PortFrame.seq_eq (h : PortFrame s t) : t.seq = s.seq := by
  obtain ⟨m, v, x, r, rfl⟩ := h
  rfl

/-! ### The writer of `seq` -/

theorem microStep_seq (h : microStep s = .next t) :
    t.seq = if s.phase = .advance then s.seq + 1#2 else s.seq := by
  rcases microStep_next_cases h with ⟨hp, rfl⟩ | ⟨hp, rfl⟩ | ⟨hp, rfl⟩ | ⟨hp, rfl⟩ | ⟨i, k, hp, -, rfl⟩ | ⟨hp, rfl⟩ |
    ⟨hp, rfl⟩ | ⟨hp, rfl⟩ | ⟨hp, rfl⟩ | ⟨hp, rfl⟩ | ⟨hp, rfl⟩ | ⟨hp, rfl⟩
  case inr.inl => split <;> simp [hp]
  all_goals simp [hp]

theorem step_seq (h : step s = .next t) (hr : ∀ c, nextMove s ≠ .reset c) :
    t.seq = if nextMove s = .engine ∧ s.phase = .advance then s.seq + 1#2 else s.seq := by
  rcases step_next_cases h with ⟨hp, -, rfl⟩ | ⟨w, -, hm, -, hw⟩ | ⟨hm, -, hs⟩ | ⟨c, hm, -⟩
  · simp [hp]
  · simp [hm, (runWord_portFrame hw).seq_eq]
  · simp [hm, microStep_seq hs]
  · exact absurd hm (hr c)

theorem step_seq_ne (h : step s = .next t) (hne : t.seq ≠ s.seq) :
    (nextMove s = .engine ∧ s.phase = .advance) ∨ ∃ c, nextMove s = .reset c := by
  by_cases hr : ∃ c, nextMove s = .reset c
  · exact .inr hr
  · by_cases ha : nextMove s = .engine ∧ s.phase = .advance
    · exact .inl ha
    · exact absurd ((step_seq h (not_exists.1 hr)).trans (if_neg ha)) hne

/-! ### ADVANCE -/

theorem advanceSeq_toNat (s : State) : (advanceSeq s).1.seq.toNat = (s.seq.toNat + 1) % 4 :=
  BitVec.toNat_add s.seq 1#2

/-- Settles O25: the writer comes from `step_seq_ne`, the sum from `advanceSeq_toNat`, the frames and the returned pair from
the equations of `advanceSeq` and of the micro-step. -/
theorem advanceMovesToTheNextGroup : Obligations.AdvanceMovesToTheNextGroup :=
  ⟨fun _ _ => step_seq_ne, fun s => ⟨⟨advanceSeq_toNat s, rfl, rfl⟩, microStep_advance⟩⟩

end Sys2Proof.Machine
end

section
/-! PROOFS. ScanEngine family (42_scan_engine.md): the REFRESH trigger, the micro-steps one by one, the order of the phases,
and where BUS_BUSY is sampled. -/

namespace Sys2Proof.Machine

open Sys2Proof.Safety

variable {s t : State}

/-! ### The shared operations, case by case -/

theorem finish_of_pending (h : s.pending = true) : finish s = { s with phase := .check, pending := false } := by
  rcases finish_cases s with ⟨-, hf⟩ | ⟨hn, -⟩
  · exact hf
  · cases hn.symm.trans h

theorem finish_of_not_pending (h : s.pending = false) : finish s = { s with phase := .idle } := by
  rcases finish_cases s with ⟨hn, -⟩ | ⟨-, hf⟩
  · cases hn.symm.trans h
  · exact hf

@[simp] theorem finish_initDone (s : State) : (finish s).initDone = s.initDone := by
  rcases finish_cases s with ⟨-, hf⟩ | ⟨-, hf⟩ <;> simp [hf]

@[simp] theorem finish_latch (s : State) : (finish s).latch = s.latch := by
  rcases finish_cases s with ⟨-, hf⟩ | ⟨-, hf⟩ <;> simp [hf]

theorem busyValue_of_noInput (h : s.params.hasBusyInput = false) : busyValue s = false := by
  simp [busyValue, h]

/-! ### REFRESH -/

theorem exec_refresh_idle (h : s.phase = .idle) : exec .refresh s = .next { s with phase := .check } := by
  rcases execRefresh_cases s with ⟨-, he⟩ | ⟨hn, -⟩
  · exact he
  · exact absurd h hn

theorem exec_refresh_running (h : s.phase ≠ .idle) : exec .refresh s = .next (overlapTrigger s) := by
  rcases execRefresh_cases s with ⟨hi, -⟩ | ⟨-, he⟩
  · exact absurd hi h
  · exact he

theorem overlapTrigger_of_drop (h : s.params.overlap = .drop) : overlapTrigger s = s := by
  rcases overlapTrigger_cases s with ⟨-, ho⟩ | ⟨hn, -⟩
  · exact ho
  · cases hn.symm.trans h

theorem overlapTrigger_of_queue1 (h : s.params.overlap = .queue1) : overlapTrigger s = { s with pending := true } := by
  rcases overlapTrigger_cases s with ⟨hn, -⟩ | ⟨-, ho⟩
  · cases hn.symm.trans h
  · exact ho

/-- Settles O18: `exec_refresh_idle` from IDLE, and during a refresh what the trigger does under each policy. -/
theorem refreshStartsOrFollowsTheOverlapPolicy : Obligations.RefreshStartsOrFollowsTheOverlapPolicy := by
  refine fun s => ⟨exec_refresh_idle, fun hr ho => ?_, fun hr ho => ?_⟩
  · rw [exec_refresh_running hr, overlapTrigger_of_drop ho]
  · rw [exec_refresh_running hr, overlapTrigger_of_queue1 ho]

/-! ### CHECK -/

theorem microStep_check_busy (hp : s.phase = .check) (hb : busyValue s = true) :
    microStep s = .next (finish (busyTaken s)) := by
  rw [microStep_check hp, if_pos hb]

theorem microStep_check_free (hp : s.phase = .check) (hb : busyValue s = false) :
    microStep s = .next (afterCheck (busyTaken s)) := by
  rw [microStep_check hp, hb, if_neg Bool.false_ne_true]

/-- The four outcomes of CHECK (R143), each with what the draw used up of the environment. -/
theorem microStep_check_cases (hp : s.phase = .check) :
    ∃ e : Env, e.commands = s.env.commands ∧ e.turns = s.env.turns ∧
      ((busyValue s = true ∧ s.pending = true ∧
          microStep s = .next { s with phase := .check, pending := false, env := e }) ∨
        (busyValue s = true ∧ s.pending = false ∧ microStep s = .next { s with phase := .idle, env := e }) ∨
        (busyValue s = false ∧ s.initDone = false ∧ microStep s = .next { s with phase := .cfgFreq, env := e }) ∨
        (busyValue s = false ∧ s.initDone = true ∧ microStep s = .next { s with phase := .shift 0 0, env := e })) := by
  obtain ⟨e, he, hc, ht⟩ := busyTaken_spec s
  refine ⟨e, hc, ht, ?_⟩
  cases hb : busyValue s with
  | true =>
    rw [microStep_check_busy hp hb, he]
    rcases finish_cases (s.setEnv e) with ⟨hq, hf⟩ | ⟨hq, hf⟩
    · exact .inl ⟨rfl, hq, congrArg _ hf⟩
    · exact .inr (.inl ⟨rfl, hq, congrArg _ hf⟩)
  | false =>
    rw [microStep_check_free hp hb, he]
    rcases afterCheck_cases (s.setEnv e) with ⟨hi, ha⟩ | ⟨hi, ha⟩
    · exact .inr (.inr (.inr ⟨rfl, hi, congrArg _ ha⟩))
    · exact .inr (.inr (.inl ⟨rfl, hi, congrArg _ ha⟩))

theorem microStep_check_frame (hp : s.phase = .check) (h : microStep s = .next t) :
    ∃ v x e, t = { s with pending := v, phase := x, env := e } := by
  obtain ⟨e, -, -, ⟨-, -, hm⟩ | ⟨-, -, hm⟩ | ⟨-, -, hm⟩ | ⟨-, -, hm⟩⟩ := microStep_check_cases hp <;>
    exact ⟨_, _, _, (Host.Outcome.next.inj (hm.symm.trans h)).symm⟩

/-- An environment that keeps the words and the turns differs in the busy values and the draws at most. -/
theorem Env.eq_of_commands_turns {e f : Env} (hc : e.commands = f.commands) (ht : e.turns = f.turns) :
    e = { f with busyIn := e.busyIn, draws := e.draws } := by
  rw [← hc, ← ht]

/-- Settles O20: each of the four outcomes of `microStep_check_cases` meets its own clause, and the conditions of the other
three contradict it. -/
theorem checkSkipsOrGoesOn : Obligations.CheckSkipsOrGoesOn := by
  intro s hp
  obtain ⟨e, hc, ht, ⟨hb, hq, hm⟩ | ⟨hb, hq, hm⟩ | ⟨hb, hi, hm⟩ | ⟨hb, hi, hm⟩⟩ := microStep_check_cases hp
  all_goals refine ⟨busyValue_of_noInput, _, hm, Env.eq_of_commands_turns hc ht, ?_⟩
  · simp [hb, hq]
  · simp [hb, hq]
  · simp [hb, hi]
  · simp [hb, hi]

/-! ### SHIFT -/

/-- The index's bound (R54): `seq` names one of four groups and OFF one of four row planes, ROW3 the last. -/
theorem shiftIndex_lt_fbSize {i : Nat} (k : Fin 4) (hg : Geometry s) (hi : i < s.rowsize) :
    shiftIndex s i k < s.fbSize := by
  obtain ⟨-, -, hrow, hrow1, hrow2, hrow3, hsize⟩ := hg
  have hbase : s.rowsize * s.seq.toNat ≤ s.rowsize * 3 := Nat.mul_le_mul_left _ (Nat.le_of_lt_succ s.seq.isLt)
  have hoff : rowOffset s k ≤ 48 * s.params.panels := by
    unfold rowOffset
    split <;> omega
  rw [shiftIndex]
  omega

theorem rowOffset_eq_ite (s : State) (k : Fin 4) :
    rowOffset s k = if k = 0 then s.row3 else if k = 1 then s.row2 else if k = 2 then s.row1 else 0 :=
  match k with
  | 0 => rfl
  | 1 => rfl
  | 2 => rfl
  | 3 => rfl

theorem nextShift_eq_ite {r i : Nat} (k : Fin 4) (hi : i < r) :
    nextShift r i k = if k = 3 then (if i = r - 1 then .oeOff else .shift (i + 1) 0) else .shift i (k + 1) := by
  unfold nextShift
  by_cases hk : k = 3
  · subst hk
    by_cases hlast : i = r - 1
    · simp [hlast, show ¬(r - 1 + 1 < r) by omega]
    · simp [hlast, show i + 1 < r by omega]
  · have hval : k.val < 3 := by omega
    simp [hk, hval]

/-- Settles O23: the read is in the buffer by `shiftIndex_lt_fbSize`, so the micro-step is `microStep_shift`, with OFF and
NextShift written as cases on k. -/
theorem shiftEmitsItsByteAndMovesOn : Obligations.ShiftEmitsItsByteAndMovesOn := by
  intro s i k hg hp hi
  rw [microStep_shift hp (shiftIndex_lt_fbSize k hg hi), shiftIndex, rowOffset_eq_ite, nextShift_eq_ite k hi]
  rfl

/-! ### OE_ON -/

theorem microStep_oeOn_pending (hp : s.phase = .oeOn) (hq : s.pending = true) :
    microStep s =
      .next { s with oe := true, trace := s.trace ++ [.pin .oe true], pending := false, phase := .check } :=
  (microStep_oeOn hp).trans (congrArg _ (finish_of_pending hq))

theorem microStep_oeOn_not_pending (hp : s.phase = .oeOn) (hq : s.pending = false) :
    microStep s = .next { s with oe := true, trace := s.trace ++ [.pin .oe true], phase := .idle } :=
  (microStep_oeOn hp).trans (congrArg _ (finish_of_not_pending hq))

/-- Settles O19: the trigger is queued as in `overlapTrigger_of_queue1`, and OE_ON and a skip both end in `finish`, which
takes it. -/
theorem queuedTriggerHasDepthOne : Obligations.QueuedTriggerHasDepthOne := by
  intro s ho
  have queued : s.phase ≠ .idle → exec .refresh s = .next { s with pending := true } := fun hr => by
    rw [exec_refresh_running hr, overlapTrigger_of_queue1 ho]
  refine ⟨queued, fun hr hq => ?_, fun hp hq => ⟨_, microStep_oeOn_pending hp hq, rfl, rfl⟩, fun hp hb hq => ?_⟩
  · rw [queued hr, ← hq]
  · obtain ⟨e, he, -⟩ := busyTaken_spec s
    refine ⟨_, microStep_check_busy hp hb, ?_⟩
    rw [he, finish_of_pending (s := s.setEnv e) hq]
    exact ⟨rfl, rfl⟩

/-! ### The order of the phases -/

/-- `phaseComesFrom x y`: the micro-step of the phase y can go to the phase x (R143 to R154; at IDLE nothing happens). -/
def phaseComesFrom : Phase → Phase → Prop
  | .idle, y => y = .idle ∨ y = .check ∨ y = .oeOn
  | .check, y => y = .check ∨ y = .oeOn
  | .cfgFreq, y => y = .check
  | .cfgMode, y => y = .cfgFreq
  | .shift _ _, y => y = .check ∨ y = .cfgMode ∨ ∃ i k, y = .shift i k
  | .oeOff, y => ∃ i k, y = .shift i k
  | .latchHi, y => y = .oeOff
  | .latchLo, y => y = .latchHi
  | .rowA, y => y = .latchLo
  | .rowB, y => y = .rowA
  | .advance, y => y = .rowB
  | .oeOn, y => y = .advance

theorem nextShift_comesFrom_shift (r i : Nat) (k : Fin 4) : phaseComesFrom (nextShift r i k) (.shift i k) := by
  have fromShift : ∃ j l, Phase.shift i k = .shift j l := ⟨i, k, rfl⟩
  unfold nextShift
  split
  · exact .inr (.inr fromShift)
  · split
    · exact .inr (.inr fromShift)
    · exact fromShift

theorem finish_comesFrom_oeOn (s : State) : phaseComesFrom (finish s).phase .oeOn := by
  rcases finish_cases s with ⟨-, hf⟩ | ⟨-, hf⟩
  · rw [hf]
    exact .inr rfl
  · rw [hf]
    exact .inr (.inr rfl)

theorem check_comesFrom (hp : s.phase = .check) (h : microStep s = .next t) : phaseComesFrom t.phase s.phase := by
  obtain ⟨e, -, -, ⟨-, -, hm⟩ | ⟨-, -, hm⟩ | ⟨-, -, hm⟩ | ⟨-, -, hm⟩⟩ := microStep_check_cases hp
  all_goals cases hm.symm.trans h
  · exact .inl hp
  · exact .inr (.inl hp)
  · exact hp
  · exact .inl hp

theorem microStep_phaseComesFrom (h : microStep s = .next t) : phaseComesFrom t.phase s.phase := by
  rcases microStep_next_cases h with ⟨hp, rfl⟩ | ⟨hp, -⟩ | ⟨hp, rfl⟩ | ⟨hp, rfl⟩ | ⟨i, k, hp, -, rfl⟩ | ⟨hp, rfl⟩ |
    ⟨hp, rfl⟩ | ⟨hp, rfl⟩ | ⟨hp, rfl⟩ | ⟨hp, rfl⟩ | ⟨hp, rfl⟩ | ⟨hp, rfl⟩
  · rw [hp]
    exact .inl rfl
  · exact check_comesFrom hp h
  · exact hp
  · exact .inr (.inl hp)
  · rw [hp]
    exact nextShift_comesFrom_shift s.rowsize i k
  · exact hp
  · exact hp
  · exact hp
  · exact hp
  · exact hp
  · exact hp
  · rw [hp]
    exact finish_comesFrom_oeOn _

/-- Settles O26: the order ROW_A, ROW_B, ADVANCE, OE_ON by `microStep_phaseComesFrom`, the equations by the two cases of
OE_ON. -/
theorem outputIsReenabledAtTheEnd : Obligations.OutputIsReenabledAtTheEnd := by
  refine ⟨fun s t h => ?_, fun s hp => ⟨microStep_oeOn_not_pending hp, microStep_oeOn_pending hp⟩⟩
  have ht : phaseComesFrom t.phase s.phase := microStep_phaseComesFrom h
  refine ⟨fun hx => ?_, fun hx => ?_, fun hx => ?_⟩
  all_goals
    rw [hx] at ht
    exact ht

/-! ### The writers of `init_done` and `latch` -/

@[simp] theorem useTurn_initDone (s : State) : (useTurn s).initDone = s.initDone := by
  obtain ⟨e, he, -⟩ := useTurn_spec s
  simp [he]

@[simp] theorem useTurn_latch (s : State) : (useTurn s).latch = s.latch := by
  obtain ⟨e, he, -⟩ := useTurn_spec s
  simp [he]

@[simp] theorem takeWord_initDone (s : State) : (takeWord s).initDone = s.initDone := State.setEnv_initDone s _

@[simp] theorem takeWord_latch (s : State) : (takeWord s).latch = s.latch := State.setEnv_latch s _

/-- CFG_MODE alone writes `init_done` (R24), LATCH_HI and LATCH_LO alone write `latch` (R29). -/
theorem microStep_initDone_latch (h : microStep s = .next t) :
    (t.initDone = if s.phase = .cfgMode then true else s.initDone) ∧
      t.latch = if s.phase = .latchHi then true else if s.phase = .latchLo then false else s.latch := by
  rcases microStep_next_cases h with ⟨hp, rfl⟩ | ⟨hp, -⟩ | ⟨hp, rfl⟩ | ⟨hp, rfl⟩ | ⟨i, k, hp, -, rfl⟩ | ⟨hp, rfl⟩ |
    ⟨hp, rfl⟩ | ⟨hp, rfl⟩ | ⟨hp, rfl⟩ | ⟨hp, rfl⟩ | ⟨hp, rfl⟩ | ⟨hp, rfl⟩
  case inr.inl =>
    obtain ⟨v, x, e, rfl⟩ := microStep_check_frame hp h
    simp [hp]
  all_goals simp [hp]

theorem step_initDone_latch (h : step s = .next t) (hr : ∀ c, nextMove s ≠ .reset c) :
    (t.initDone = if nextMove s = .engine ∧ s.phase = .cfgMode then true else s.initDone) ∧
      t.latch = if nextMove s = .engine ∧ s.phase = .latchHi then true
        else if nextMove s = .engine ∧ s.phase = .latchLo then false else s.latch := by
  rcases step_next_cases h with ⟨hp, -, rfl⟩ | ⟨w, -, hm, -, hw⟩ | ⟨hm, -, hs⟩ | ⟨c, hm, -⟩
  · simp [hp]
  · obtain ⟨m, v, x, r, rfl⟩ := runWord_portFrame hw
    simp [hm]
  · simpa [hm] using microStep_initDone_latch hs
  · exact absurd hm (hr c)

/-! ### The lazy init -/

/-- CHECK goes to the lazy init only when the transport is not configured (R143, R163). -/
theorem check_to_cfgFreq (hp : s.phase = .check) (h : microStep s = .next t) (ht : t.phase = .cfgFreq) :
    s.initDone = false := by
  obtain ⟨e, -, -, ⟨-, -, hm⟩ | ⟨-, -, hm⟩ | ⟨-, hi, -⟩ | ⟨-, -, hm⟩⟩ := microStep_check_cases hp
  case inr.inr.inl => exact hi
  all_goals
    cases hm.symm.trans h
    cases ht

theorem step_keeps_initDone (h : step s = .next t) (hr : ∀ c, nextMove s ≠ .reset c) (hi : s.initDone = true) :
    t.initDone = true := by
  rw [(step_initDone_latch h hr).1, hi, ite_self]

/-- Settles O22: the way to CFG_FREQ by the order of the phases and `check_to_cfgFreq`, the flag by `step_keeps_initDone`, the
events by the equations of the two micro-steps. -/
theorem lazyInitEmitsClockThenMode : Obligations.LazyInitEmitsClockThenMode := by
  refine ⟨fun s t h ht => ?_, fun s t => step_keeps_initDone, fun s => ⟨microStep_cfgFreq, microStep_cfgMode⟩⟩
  have hp : phaseComesFrom t.phase s.phase := microStep_phaseComesFrom h
  rw [ht] at hp
  have hi : s.initDone = false := check_to_cfgFreq hp h ht
  obtain ⟨v, x, e, rfl⟩ := microStep_check_frame hp h
  exact ⟨hp, hi, hi⟩

/-! ### The pin micro-steps -/

theorem step_keeps_latch_low (h : step s = .next t) (hl : s.latch = false)
    (hn : ¬(nextMove s = .engine ∧ s.phase = .latchHi)) : t.latch = false := by
  by_cases hr : ∃ c, nextMove s = .reset c
  · obtain ⟨c, hc⟩ := hr
    rw [step_reset hc] at h
    rcases applyReset_cases c (useTurn s) with ⟨-, -, ha⟩ | ⟨-, ha⟩
    · cases ha.symm.trans h
      rfl
    · cases ha.symm.trans h
  · rw [(step_initDone_latch h (not_exists.1 hr)).2, if_neg hn, hl, ite_self]

theorem oe_low_at_row_writes (hi : Inv s) (hp : s.phase = .rowA ∨ s.phase = .rowB) : s.oe = false := by
  apply hi.output_dark
  rcases hp with hp | hp
  · rw [hp]; rfl
  · rw [hp]; rfl

theorem rowB_leaves_rowSelect (hl : RowLines s) (hp : s.phase = .rowB) (h : microStep s = .next t) :
    (t.a, t.b) = rowSelect t.seq := by
  cases (microStep_rowB hp).symm.trans h
  exact congrArg (·, s.seq.getLsbD 1) (hl.at_rowB hp)

/-- Settles O24: the latch by its writers, `oe` by the invariant, the pair by ROW_A's half in `RowLines`, and the five
equations by the micro-steps' own. -/
theorem pinMicroStepsWriteTheirLine : Obligations.PinMicroStepsWriteTheirLine :=
  ⟨fun _ _ => step_keeps_latch_low, fun _ => oe_low_at_row_writes, fun _ _ => rowB_leaves_rowSelect,
    fun _ => ⟨microStep_oeOff, microStep_latchHi, microStep_latchLo, microStep_rowA, microStep_rowB⟩⟩

/-! ### Where BUS_BUSY is sampled

Reading an operation's equation at `withBusy bs s` gives its equation at `s` with those values still to come: every
condition it has is about fields that `withBusy` leaves. -/

section OtherBusyValues

variable (bs : List Bool)

theorem nextMove_withBusy (s : State) : nextMove (withBusy bs s) = nextMove s := rfl

theorem takeWord_withBusy (s : State) : takeWord (withBusy bs s) = withBusy bs (takeWord s) := rfl

theorem useTurn_withBusy (s : State) : useTurn (withBusy bs s) = withBusy bs (useTurn s) := by
  have hw : (withBusy bs s).env.turns = s.env.turns := rfl
  unfold useTurn
  rw [hw]
  cases s.env.turns with
  | nil => rfl
  | cons u us => rfl

theorem finish_withBusy (s : State) : finish (withBusy bs s) = withBusy bs (finish s) := by
  rcases finish_cases s with ⟨hq, hf⟩ | ⟨hq, hf⟩
  · rw [hf]
    exact finish_of_pending (s := withBusy bs s) hq
  · rw [hf]
    exact finish_of_not_pending (s := withBusy bs s) hq

theorem overlapTrigger_withBusy (s : State) : overlapTrigger (withBusy bs s) = withBusy bs (overlapTrigger s) := by
  rcases overlapTrigger_cases s with ⟨hp, ho⟩ | ⟨hp, ho⟩
  · rw [ho]
    exact overlapTrigger_of_drop (s := withBusy bs s) hp
  · rw [ho]
    exact overlapTrigger_of_queue1 (s := withBusy bs s) hp

theorem execRefresh_withBusy (s : State) :
    execRefresh (withBusy bs s) = mapNext (withBusy bs) (execRefresh s) := by
  rcases execRefresh_cases s with ⟨hp, he⟩ | ⟨hp, he⟩
  · rw [he]
    exact exec_refresh_idle (s := withBusy bs s) hp
  · rw [he]
    exact (exec_refresh_running (s := withBusy bs s) hp).trans (congrArg _ (overlapTrigger_withBusy bs s))

theorem memRead_of_not_lt {j : Nat} (h : ¬j < s.fbSize) : memRead s j = .error (.noSuchIndex j) := if_neg h

theorem execSetPixel_noSuchIndex {p x y : Nat} (on : Bool) (hr : inRange s p x y = true)
    (hj : ¬pixelIndex s p x y < s.fbSize) :
    execSetPixel p x y on s = .fault (.noSuchIndex (pixelIndex s p x y)) := by
  simp [execSetPixel, hr, memRead_of_not_lt hj]

theorem execGetPixel_noSuchIndex {p x y : Nat} (hr : inRange s p x y = true) (hj : ¬pixelIndex s p x y < s.fbSize) :
    execGetPixel p x y s = .fault (.noSuchIndex (pixelIndex s p x y)) := by
  simp [execGetPixel, hr, memRead_of_not_lt hj]

theorem execSetPixel_withBusy (p x y : Nat) (on : Bool) (s : State) :
    execSetPixel p x y on (withBusy bs s) = mapNext (withBusy bs) (execSetPixel p x y on s) := by
  cases hr : inRange s p x y with
  | false =>
    rw [execSetPixel_outOfRange on hr]
    exact execSetPixel_outOfRange (s := withBusy bs s) on hr
  | true =>
    by_cases hj : pixelIndex s p x y < s.fbSize
    · rw [execSetPixel_inRange on hr hj]
      exact execSetPixel_inRange (s := withBusy bs s) on hr hj
    · rw [execSetPixel_noSuchIndex on hr hj]
      exact execSetPixel_noSuchIndex (s := withBusy bs s) on hr hj

theorem execGetPixel_withBusy (p x y : Nat) (s : State) :
    execGetPixel p x y (withBusy bs s) = mapNext (withBusy bs) (execGetPixel p x y s) := by
  cases hr : inRange s p x y with
  | false =>
    rw [execGetPixel_outOfRange hr]
    exact execGetPixel_outOfRange (s := withBusy bs s) hr
  | true =>
    by_cases hj : pixelIndex s p x y < s.fbSize
    · rw [execGetPixel_inRange hr hj]
      exact execGetPixel_inRange (s := withBusy bs s) hr hj
    · rw [execGetPixel_noSuchIndex hr hj]
      exact execGetPixel_noSuchIndex (s := withBusy bs s) hr hj

theorem exec_withBusy (i : Instr) (s : State) : exec i (withBusy bs s) = mapNext (withBusy bs) (exec i s) := by
  cases i with
  | refresh => exact execRefresh_withBusy bs s
  | setPixel p x y on => exact execSetPixel_withBusy bs p x y on s
  | getPixel p x y => exact execGetPixel_withBusy bs p x y s

theorem runWord_withBusy (w : Word) (s : State) :
    runWord w (withBusy bs s) = mapNext (withBusy bs) (runWord w s) := by
  unfold runWord
  cases decode w with
  | error r => rfl
  | ok i => exact exec_withBusy bs i s

theorem microShift_withBusy (i : Nat) (k : Fin 4) (s : State) :
    microShift i k (withBusy bs s) = mapNext (withBusy bs) (microShift i k s) := by
  have hr : memRead (withBusy bs s) (shiftIndex (withBusy bs s) i k) = memRead s (shiftIndex s i k) := rfl
  unfold microShift
  rw [hr]
  cases memRead s (shiftIndex s i k) with
  | error f => rfl
  | ok v => rfl

/-- No micro-step but CHECK draws `busy` (R161). -/
theorem microStep_withBusy (h : s.phase ≠ .check) :
    microStep (withBusy bs s) = mapNext (withBusy bs) (microStep s) := by
  have hw : (withBusy bs s).phase = s.phase := rfl
  unfold microStep
  rw [hw]
  cases hp : s.phase
  case check => exact absurd hp h
  case shift i k => exact microShift_withBusy bs i k s
  case oeOn => exact congrArg _ (finish_withBusy bs ((s.setOe true).emit (.pin .oe true)))
  all_goals rfl

theorem applyReset_withBusy (c : Params) (s : State) :
    applyReset c (withBusy bs s) = mapNext (withBusy bs) (applyReset c s) := by
  unfold applyReset
  cases panelsLegal c.panels with
  | true => rfl
  | false => rfl

end OtherBusyValues

/-- Settles O37: after the turn is used up, each agent's step but CHECK commutes with `withBusy`. -/
theorem busyIsSampledOnlyAtCheck : Obligations.BusyIsSampledOnlyAtCheck := by
  intro s bs h
  unfold step
  rw [nextMove_withBusy, useTurn_withBusy]
  cases hm : nextMove s with
  | wait => rfl
  | port w =>
    dsimp only
    rw [takeWord_withBusy]
    exact runWord_withBusy bs w _
  | reset c => exact applyReset_withBusy bs c (useTurn s)
  | engine =>
    have hp : s.phase ≠ .check := h.resolve_right (not_not_intro hm)
    exact microStep_withBusy bs (by rwa [useTurn_phase])

end Sys2Proof.Machine
end

section
/-! PROOFS. Reset family (70_reset_and_hazards.md): what a reset step does, and what only a reset changes. -/

namespace Sys2Proof.Machine

variable {s t : State}

/-! ### What every step but a reset keeps -/

/-- What a reset fixes until the next one: the launch parameters and the constants of P (R200, R209), and the number of the
draw of frame-buffer contents (R201). -/
def fixedAtReset (s : State) : Params × Nat × Nat × Nat × Nat × Nat × Nat :=
  (s.params, s.rowsize, s.row1, s.row2, s.row3, s.fbSize, s.fbDraw)

theorem fixedAtReset_eq_iff : fixedAtReset t = fixedAtReset s ↔
    t.params = s.params ∧ t.rowsize = s.rowsize ∧ t.row1 = s.row1 ∧ t.row2 = s.row2 ∧ t.row3 = s.row3 ∧
      t.fbSize = s.fbSize ∧ t.fbDraw = s.fbDraw := by
  simp only [fixedAtReset, Prod.mk.injEq]

theorem fixedAtReset_useTurn (s : State) : fixedAtReset (useTurn s) = fixedAtReset s := by
  obtain ⟨e, he, -⟩ := useTurn_spec s
  rw [he]
  rfl

theorem fixedAtReset_takeWord (s : State) : fixedAtReset (takeWord s) = fixedAtReset s := rfl

theorem fixedAtReset_finish (s : State) : fixedAtReset (finish s) = fixedAtReset s := by
  rcases finish_cases s with ⟨-, hf⟩ | ⟨-, hf⟩
  · rw [hf]
    rfl
  · rw [hf]
    rfl

theorem PortFrame.fixedAtReset_eq (h : PortFrame s t) : fixedAtReset t = fixedAtReset s := by
  obtain ⟨m, v, x, r, rfl⟩ := h
  rfl

/-- CHECK and OE_ON go through shared operations; the next state of every other phase is written out. -/
theorem microStep_fixedAtReset (h : microStep s = .next t) : fixedAtReset t = fixedAtReset s := by
  rcases microStep_next_cases h with ⟨-, rfl⟩ | ⟨hp, -⟩ | ⟨-, rfl⟩ | ⟨-, rfl⟩ | ⟨i, k, -, -, rfl⟩ | ⟨-, rfl⟩ |
    ⟨-, rfl⟩ | ⟨-, rfl⟩ | ⟨-, rfl⟩ | ⟨-, rfl⟩ | ⟨-, rfl⟩ | ⟨-, rfl⟩
  case inr.inl =>
    obtain ⟨v, x, e, rfl⟩ := microStep_check_frame hp h
    rfl
  on_goal -1 => exact fixedAtReset_finish ((s.setOe true).emit (.pin .oe true))
  all_goals rfl

theorem step_fixedAtReset (h : step s = .next t) (hr : ∀ c, nextMove s ≠ .reset c) :
    fixedAtReset t = fixedAtReset s := by
  rcases step_next_cases h with ⟨-, -, rfl⟩ | ⟨w, -, -, -, hw⟩ | ⟨-, -, hs⟩ | ⟨c, hm, -⟩
  · exact fixedAtReset_useTurn s
  · calc fixedAtReset t
      _ = fixedAtReset (takeWord (useTurn s)) := (runWord_portFrame hw).fixedAtReset_eq
      _ = fixedAtReset (useTurn s) := fixedAtReset_takeWord _
      _ = fixedAtReset s := fixedAtReset_useTurn s
  · exact (microStep_fixedAtReset hs).trans (fixedAtReset_useTurn s)
  · exact absurd hm (hr c)

/-- Settles O32: `step_fixedAtReset`, read field by field. -/
theorem geometryIsFixedBetweenResets : Obligations.GeometryIsFixedBetweenResets :=
  fun _ _ h hr => fixedAtReset_eq_iff.1 (step_fixedAtReset h hr)

/-! ### The reset step -/

theorem nextMove_of_reset_turn {c : Params} {us : List Turn} (h : s.env.turns = .reset c :: us) :
    nextMove s = .reset c := by
  simp [nextMove, h]

theorem useTurn_fbDraw (s : State) : (useTurn s).fbDraw = s.fbDraw := by
  obtain ⟨e, he, -⟩ := useTurn_spec s
  rw [he, State.setEnv_fbDraw]

/-- Settles O45: the step is `applyReset`, whose two cases are the two clauses; the constants by the geometry's closed forms,
the new draw by its number one above the old one's. -/
theorem resetStepAppliesTheResetValues : Obligations.ResetStepAppliesTheResetValues := by
  intro s c us h
  rw [step_reset (nextMove_of_reset_turn h)]
  rcases applyReset_cases c (useTurn s) with ⟨h₁, h₂, ha⟩ | ⟨hn, ha⟩
  · have hd : (useTurn s).fbDraw + 1 ≠ s.fbDraw := by
      rw [useTurn_fbDraw]
      exact Nat.succ_ne_self _
    exact ⟨fun hn => absurd ⟨h₁, h₂⟩ hn, fun _ => ⟨_, _, ha, rfl, rowsizeOf_eq _, row1Of_eq _, row2Of_eq _, row3Of_eq _,
      fbSizeOf_eq _, rfl, rfl, rfl, rfl, rfl, rfl, rfl, rfl, rfl, rfl, hd, State.resetWith_fbByte _ _ _⟩⟩
  · exact ⟨fun _ => ha, fun hp => absurd hp hn⟩

end Sys2Proof.Machine
end

section
/-! PROOFS. What one step of any kind may change, and the rule for invariants of the machine step (R13, R155). -/

namespace Sys2Proof.Machine

open Sys2Proof.Safety

variable {s t : State}

/-! ### A word on the port -/

/-- All that a word on the port can do when it goes on: a refresh trigger, a written pixel, or a response alone. Only a
response OK carries a pixel. -/
theorem runWord_next_cases {w : Word} (h : runWord w s = .next t) :
    (decode w = .ok .refresh ∧ s.phase = .idle ∧ t = s.setPhase .check) ∨
    (decode w = .ok .refresh ∧ s.phase ≠ .idle ∧ s.params.overlap = .drop ∧ t = s) ∨
    (decode w = .ok .refresh ∧ s.phase ≠ .idle ∧ s.params.overlap = .queue1 ∧ t = s.setPending true) ∨
    (∃ p x y on, decode w = .ok (.setPixel p x y on) ∧ inRange s p x y = true ∧ pixelIndex s p x y < s.fbSize ∧
      t = pixelWritten s p x y on) ∨
    (decode w ≠ .ok .refresh ∧ ∃ st v, (st = .ok ∨ v = false) ∧ t = s.respond st v) := by
  rcases runWord_cases w s with ⟨r, hd, hw⟩ | ⟨i, hd, hw⟩
  · cases hw.symm.trans h
    exact .inr (.inr (.inr (.inr ⟨by simp [hd], _, _, .inr rfl, rfl⟩)))
  have hi : exec i s = .next t := hw.symm.trans h
  cases i with
  | refresh =>
    rcases execRefresh_cases s with ⟨hp, he⟩ | ⟨hp, he⟩
    · cases he.symm.trans hi
      exact .inl ⟨hd, hp, rfl⟩
    · cases he.symm.trans hi
      rcases overlapTrigger_cases s with ⟨ho, ht⟩ | ⟨ho, ht⟩
      · exact .inr (.inl ⟨hd, hp, ho, ht⟩)
      · exact .inr (.inr (.inl ⟨hd, hp, ho, ht⟩))
  | setPixel p x y on =>
    rcases execSetPixel_next hi with ⟨hr, hj, ht⟩ | ⟨-, ht⟩
    · exact .inr (.inr (.inr (.inl ⟨p, x, y, on, hd, hr, hj, ht⟩)))
    · exact .inr (.inr (.inr (.inr ⟨by simp [hd], _, _, .inr rfl, ht⟩)))
  | getPixel p x y =>
    rcases execGetPixel_next hi with ⟨-, -, ht⟩ | ⟨-, ht⟩
    · exact .inr (.inr (.inr (.inr ⟨by simp [hd], _, _, .inl rfl, ht⟩)))
    · exact .inr (.inr (.inr (.inr ⟨by simp [hd], _, _, .inr rfl, ht⟩)))

theorem runWord_phase {w : Word} (h : runWord w s = .next t) :
    t.phase = s.phase ∨ (s.phase = .idle ∧ t.phase = .check ∧ decode w = .ok .refresh) := by
  rcases runWord_next_cases h with ⟨hd, hp, rfl⟩ | ⟨-, -, -, rfl⟩ | ⟨-, -, -, rfl⟩ | ⟨p, x, y, on, -, -, -, rfl⟩ |
    ⟨-, st, v, -, rfl⟩
  · exact .inr ⟨hp, rfl, hd⟩
  all_goals exact .inl rfl

theorem runWord_pending {w : Word} (h : runWord w s = .next t) :
    t.pending = s.pending ∨ (s.phase ≠ .idle ∧ s.params.overlap = .queue1 ∧ decode w = .ok .refresh) := by
  rcases runWord_next_cases h with ⟨-, -, rfl⟩ | ⟨-, -, -, rfl⟩ | ⟨hd, hp, ho, rfl⟩ | ⟨p, x, y, on, -, -, -, rfl⟩ |
    ⟨-, st, v, -, rfl⟩
  case inr.inr.inl => exact .inr ⟨hp, ho, hd⟩
  all_goals exact .inl rfl

/-- Settles O33: the frame by `runWord_portFrame`, the two conditions by `runWord_phase` and `runWord_pending`. -/
theorem whatAWordOnThePortMayChange : Obligations.WhatAWordOnThePortMayChange := by
  intro s t w h
  refine ⟨?_, runWord_phase h, runWord_pending h⟩
  obtain ⟨m, v, x, r, rfl⟩ := runWord_portFrame h
  rfl

/-- The response words that R78 and R79 leave: a pixel with OK only. -/
theorem responseWord_mem {st : Status} {v : Bool} (h : st = .ok ∨ v = false) :
    responseWord st v = 0#32 ∨ responseWord st v = 1#32 ∨ responseWord st v = 2#32 ∨ responseWord st v = 0x100#32 := by
  cases st with
  | ok => cases v <;> decide
  | outOfRange =>
    obtain rfl : v = false := h.resolve_left (by decide)
    exact .inr (.inl rfl)
  | illegalCommand =>
    obtain rfl : v = false := h.resolve_left (by decide)
    exact .inr (.inr (.inl rfl))

/-- Settles O36: the three refresh cases of `runWord_next_cases` leave the responses, the other two add one. -/
theorem everyWordButRefreshAnswersOnce : Obligations.EveryWordButRefreshAnswersOnce := by
  intro w s t h
  rcases runWord_next_cases h with ⟨hd, -, rfl⟩ | ⟨hd, -, -, rfl⟩ | ⟨hd, -, -, rfl⟩ | ⟨p, x, y, on, hd, -, -, rfl⟩ |
    ⟨hd, st, v, hv, rfl⟩
  · exact ⟨fun _ => rfl, fun hn => absurd hd hn⟩
  · exact ⟨fun _ => rfl, fun hn => absurd hd hn⟩
  · exact ⟨fun _ => rfl, fun hn => absurd hd hn⟩
  · exact ⟨fun hr => by (cases hd.symm.trans hr), fun _ => ⟨_, rfl, responseWord_mem (.inl rfl)⟩⟩
  · exact ⟨fun hr => absurd hr hd, fun _ => ⟨_, rfl, responseWord_mem hv⟩⟩

/-! ### A micro-step -/

theorem finish_frame (s : State) : ∃ v x, finish s = { s with pending := v, phase := x } := by
  rcases finish_cases s with ⟨-, hf⟩ | ⟨-, hf⟩
  · exact ⟨_, _, hf⟩
  · exact ⟨_, _, hf⟩

/-- What no micro-step writes: the frame buffer, the responses, and the environment's words and turns (R146, R155). -/
theorem microStep_keeps (h : microStep s = .next t) :
    t.fb = s.fb ∧ t.responses = s.responses ∧ t.env.commands = s.env.commands ∧ t.env.turns = s.env.turns := by
  rcases microStep_next_cases h with ⟨-, rfl⟩ | ⟨hp, -⟩ | ⟨-, rfl⟩ | ⟨-, rfl⟩ | ⟨i, k, -, -, rfl⟩ | ⟨-, rfl⟩ |
    ⟨-, rfl⟩ | ⟨-, rfl⟩ | ⟨-, rfl⟩ | ⟨-, rfl⟩ | ⟨-, rfl⟩ | ⟨-, rfl⟩
  case inr.inl =>
    obtain ⟨e, hc, hu, ⟨-, -, hm⟩ | ⟨-, -, hm⟩ | ⟨-, -, hm⟩ | ⟨-, -, hm⟩⟩ := microStep_check_cases hp
    all_goals
      cases hm.symm.trans h
      exact ⟨rfl, rfl, hc, hu⟩
  on_goal -1 =>
    obtain ⟨v, x, hf⟩ := finish_frame ((s.setOe true).emit (.pin .oe true))
    rw [hf]
  all_goals exact ⟨rfl, rfl, rfl, rfl⟩

theorem microStep_params (h : microStep s = .next t) : t.params = s.params :=
  (fixedAtReset_eq_iff.1 (microStep_fixedAtReset h)).1

theorem microStep_fbByte (h : microStep s = .next t) (j : Nat) : t.fbByte j = s.fbByte j := by
  obtain ⟨-, -, -, -, -, -, hdraw⟩ := fixedAtReset_eq_iff.1 (microStep_fixedAtReset h)
  exact State.fbByte_congr (microStep_keeps h).1 hdraw j

/-- Settles O35: `microStep_keeps`, and the bytes with it, as the draw of reset contents stays too. -/
theorem microStepsWriteNoByteAndNoResponse : Obligations.MicroStepsWriteNoByteAndNoResponse := by
  intro s t h
  obtain ⟨hfb, hr, hc, hu⟩ := microStep_keeps h
  exact ⟨hfb, microStep_fbByte h, hr, hc, hu, microStep_params h⟩

/-! ### The machine step -/

/-- The turn is used up and the oldest word taken, and nothing else changes (R77, R155). -/
theorem takeWord_useTurn_spec (s : State) :
    ∃ e : Env, takeWord (useTurn s) = s.setEnv e ∧ e.commands = s.env.commands.tail ∧ e.busyIn = s.env.busyIn ∧
      e.turns = s.env.turns.tail := by
  obtain ⟨e, he, hc, hb, ht⟩ := useTurn_spec s
  exact ⟨{ e with commands := e.commands.tail }, by rw [he]; rfl, congrArg List.tail hc, hb, ht⟩

/-- A property is kept by every step if the environment does not matter to it, a word on the port and a micro-step keep it,
and an admitted reset makes it hold. -/
theorem step_keeps {P : State → Prop} (henv : ∀ s e, P s → P (s.setEnv e))
    (hword : ∀ w s t, P s → runWord w s = .next t → P t) (hmicro : ∀ s t, P s → microStep s = .next t → P t)
    (hreset : ∀ c n e, 1 ≤ c.panels → c.panels ≤ 256 → P (State.resetWith c n e)) (hs : P s) (h : step s = .next t) :
    P t := by
  obtain ⟨e, he, -⟩ := useTurn_spec s
  have hu : P (useTurn s) := he ▸ henv s e hs
  rcases step_next_cases h with ⟨-, -, rfl⟩ | ⟨w, -, -, -, hw⟩ | ⟨-, -, hm⟩ | ⟨c, -, h₁, h₂, rfl⟩
  · exact hu
  · exact hword w _ t (henv _ _ hu) hw
  · exact hmicro _ t hu hm
  · exact hreset c _ _ h₁ h₂

/-! ### The writers of the registers -/

/-- Settles O28: `step_seq` where the step is no reset, and a reset's own value. -/
theorem seqChangesOnlyAtAdvance : Obligations.SeqChangesOnlyAtAdvance := by
  intro s t h
  rcases step_next_cases h with ⟨-, -, rfl⟩ | ⟨w, -, -, -, hw⟩ | ⟨hm, -, hs⟩ | ⟨c, hm, -, -, rfl⟩
  · exact .inl (useTurn_seq s)
  · exact .inl (by simp [(runWord_portFrame hw).seq_eq])
  · have hq := microStep_seq hs
    rw [useTurn_phase, useTurn_seq] at hq
    by_cases hp : s.phase = .advance
    · rw [if_pos hp] at hq
      exact .inr (.inl ⟨hm, hp, by rw [hq]; exact BitVec.toNat_add s.seq 1#2⟩)
    · exact .inl (hq.trans (if_neg hp))
  · exact .inr (.inr ⟨c, hm, rfl⟩)

/-- ROW_A alone writes `a` and ROW_B alone writes `b`, each from the current `seq` (R30, R151, R152). -/
theorem microStep_rowLines (h : microStep s = .next t) :
    (t.a = if s.phase = .rowA then s.seq.getLsbD 0 else s.a) ∧
      t.b = if s.phase = .rowB then s.seq.getLsbD 1 else s.b := by
  rcases microStep_next_cases h with ⟨hp, rfl⟩ | ⟨hp, -⟩ | ⟨hp, rfl⟩ | ⟨hp, rfl⟩ | ⟨i, k, hp, -, rfl⟩ | ⟨hp, rfl⟩ |
    ⟨hp, rfl⟩ | ⟨hp, rfl⟩ | ⟨hp, rfl⟩ | ⟨hp, rfl⟩ | ⟨hp, rfl⟩ | ⟨hp, rfl⟩
  case inr.inl =>
    obtain ⟨v, x, e, rfl⟩ := microStep_check_frame hp h
    simp [hp]
  on_goal -1 =>
    obtain ⟨v, x, hf⟩ := finish_frame ((s.setOe true).emit (.pin .oe true))
    rw [hf]
  all_goals simp [hp]

theorem step_rowLines (h : step s = .next t) (hr : ∀ c, nextMove s ≠ .reset c) :
    (t.a = if nextMove s = .engine ∧ s.phase = .rowA then s.seq.getLsbD 0 else s.a) ∧
      t.b = if nextMove s = .engine ∧ s.phase = .rowB then s.seq.getLsbD 1 else s.b := by
  obtain ⟨e, he, -⟩ := useTurn_spec s
  rcases step_next_cases h with ⟨hp, -, rfl⟩ | ⟨w, -, hm, -, hw⟩ | ⟨hm, -, hs⟩ | ⟨c, hm, -⟩
  · simp [hp, he]
  · obtain ⟨m, v, x, r, rfl⟩ := runWord_portFrame hw
    simp [hm, he, takeWord]
  · simpa [hm, he] using microStep_rowLines hs
  · exact absurd hm (hr c)

theorem latchPin_of_high (h : s.params.latchActiveLevel = true) : latchPin s = s.latch := by
  rw [latchPin, h, levelOf_true]

theorem latchPin_of_low (h : s.params.latchActiveLevel = false) : latchPin s = !s.latch := by
  rw [latchPin, h, levelOf_false]

/-- Settles O30: the levels by the two lemmas on the latch pin, the writers by `step_initDone_latch` and `step_rowLines`. -/
theorem latchAndRowLinesAreWrittenByTheirMicroSteps : Obligations.LatchAndRowLinesAreWrittenByTheirMicroSteps :=
  ⟨fun _ => ⟨latchPin_of_high, latchPin_of_low, rfl, rfl⟩,
    fun _ _ h hr => ⟨(step_initDone_latch h hr).2, step_rowLines h hr⟩⟩

/-- Settles O31: the reset value as written in `State.resetWith`, the writer by `step_initDone_latch`. -/
theorem initDoneIsSetOnceByTheLazyInit : Obligations.InitDoneIsSetOnceByTheLazyInit :=
  ⟨fun _ _ _ => rfl, fun _ _ h hr => (step_initDone_latch h hr).1⟩

/-! ### The bytes of the frame buffer -/

/-- A word on the port changes a byte only as an in-range SETPIXEL to its index. -/
theorem runWord_fbByte_ne {w : Word} {j : Nat} (h : runWord w s = .next t) (hj : t.fbByte j ≠ s.fbByte j) :
    ∃ p x y on, decode w = .ok (.setPixel p x y on) ∧ inRange s p x y = true ∧ j = pixelIndex s p x y := by
  rcases runWord_next_cases h with ⟨-, -, rfl⟩ | ⟨-, -, -, rfl⟩ | ⟨-, -, -, rfl⟩ | ⟨p, x, y, on, hd, hr, -, rfl⟩ |
    ⟨-, st, v, -, rfl⟩
  case inr.inr.inr.inl =>
    refine ⟨p, x, y, on, hd, hr, ?_⟩
    by_contra hn
    exact hj ((pixelWritten_fbByte s p x y on j).trans (if_neg hn))
  all_goals exact absurd rfl hj

/-- Settles O34: waiting and micro-steps write no byte, and for a word on the port `runWord_fbByte_ne` says which. -/
theorem bytesChangeOnlyBySetPixelOrReset : Obligations.BytesChangeOnlyBySetPixelOrReset := by
  intro s t j h hj
  obtain ⟨e, he, -⟩ := useTurn_spec s
  rcases step_next_cases h with ⟨-, -, rfl⟩ | ⟨w, -, hm, -, hw⟩ | ⟨-, -, hs⟩ | ⟨c, hm, -⟩
  · exact absurd (by rw [he, State.setEnv_fbByte]) hj
  · obtain ⟨f, hf, -⟩ := takeWord_useTurn_spec s
    rw [hf] at hw
    obtain ⟨p, x, y, on, hd, hr, hi⟩ := runWord_fbByte_ne hw hj
    exact .inr ⟨w, p, x, y, on, hm, hd, hr, hi⟩
  · exact absurd (by rw [microStep_fbByte hs, he, State.setEnv_fbByte]) hj
  · exact .inl ⟨c, hm⟩

end Sys2Proof.Machine
end

section
/-! PROOFS. The invariant of a reachable state (10_state.md section 5): every step keeps it, and nothing stops a step from a
state that has it. -/

namespace Sys2Proof.Machine

open Sys2Proof.Safety

variable {s t : State}

/-! ### The two halves of the invariant -/

/-- The half of `Inv` about the memory: the geometry, and the frame buffer in canonical form and within bounds. -/
def Stored (s : State) : Prop := Geometry s ∧ Memory.wf s.fb ∧ ∀ c ∈ s.fb, c.1 < s.fbSize

/-- The half of `Inv` about the registers, which `phase` governs. -/
structure Controlled (s : State) : Prop where
  init_done : afterInit s.phase = true → s.initDone = true
  lazy_init : inLazyInit s.phase = true → s.initDone = false
  latch_window : s.latch = true ↔ s.phase = .latchLo
  pending_queue : s.pending = true → s.params.overlap = .queue1
  pending_busy : s.pending = true → s.phase ≠ .idle
  output_dark : outputDark s.phase = true → s.oe = false
  shift_row : ∀ i k, s.phase = .shift i k → i < s.rowsize

theorem inv_iff : Inv s ↔ Stored s ∧ Controlled s :=
  ⟨fun h => ⟨⟨h.geometry, h.fb_canonical, h.fb_bounded⟩, ⟨h.init_done, h.lazy_init, h.latch_window, h.pending_queue,
      h.pending_busy, h.output_dark, h.shift_row⟩⟩,
    fun ⟨⟨hg, hw, hb⟩, hc⟩ => ⟨hg, hw, hb, hc.init_done, hc.lazy_init, hc.latch_window, hc.pending_queue, hc.pending_busy,
      hc.output_dark, hc.shift_row⟩⟩

theorem rowsize_pos (hg : Geometry s) : 0 < s.rowsize := by
  have hrow : s.rowsize = 4 * s.params.panels := hg.rowsize_eq
  have hpos : 1 ≤ s.params.panels := hg.panels_pos
  omega

/-! ### The memory -/

theorem geometry_of_fixedAtReset (hf : fixedAtReset t = fixedAtReset s) (hg : Geometry s) : Geometry t := by
  obtain ⟨hp, h, h₁, h₂, h₃, hsize, -⟩ := fixedAtReset_eq_iff.1 hf
  obtain ⟨g, g', g'', g₁, g₂, g₃, gsize⟩ := hg
  constructor <;> simpa only [hp, h, h₁, h₂, h₃, hsize]

theorem stored_of_same_fb (hf : fixedAtReset t = fixedAtReset s) (hm : t.fb = s.fb) (hs : Stored s) : Stored t := by
  obtain ⟨hg, hw, hb⟩ := hs
  obtain ⟨-, -, -, -, -, hsize, -⟩ := fixedAtReset_eq_iff.1 hf
  refine ⟨geometry_of_fixedAtReset hf hg, ?_, ?_⟩
  · rwa [hm]
  · rwa [hm, hsize]

theorem pixelWritten_stored {p x y : Nat} (on : Bool) (hj : pixelIndex s p x y < s.fbSize) (hs : Stored s) :
    Stored (pixelWritten s p x y on) := by
  obtain ⟨hg, hw, hb⟩ := hs
  refine ⟨geometry_of_fixedAtReset (s := s) rfl hg, Memory.wf_write _ _ hw, fun c hc => ?_⟩
  rcases Memory.mem_write hc with rfl | hc
  · exact hj
  · exact hb c hc

theorem runWord_stored (w : Word) (hs : Stored s) (h : runWord w s = .next t) : Stored t := by
  rcases runWord_next_cases h with ⟨-, -, rfl⟩ | ⟨-, -, -, rfl⟩ | ⟨-, -, -, rfl⟩ | ⟨p, x, y, on, -, -, hj, rfl⟩ |
    ⟨-, st, v, -, rfl⟩
  case inr.inl => exact hs
  case inr.inr.inr.inl => exact pixelWritten_stored on hj hs
  all_goals exact stored_of_same_fb (s := s) rfl rfl hs

/-! ### The registers -/

theorem runWord_controlled (w : Word) (hs : Controlled s) (h : runWord w s = .next t) : Controlled t := by
  obtain ⟨hi, hl, hlatch, hq, hb, ho, hr⟩ := hs
  rcases runWord_next_cases h with ⟨-, hp, rfl⟩ | ⟨-, -, -, rfl⟩ | ⟨-, hp, hov, rfl⟩ | ⟨p, x, y, on, -, -, -, rfl⟩ |
    ⟨-, st, v, -, rfl⟩
  · rw [hp] at hlatch
    exact ⟨nofun, nofun, by simpa using hlatch, hq, nofun, nofun, nofun⟩
  · exact ⟨hi, hl, hlatch, hq, hb, ho, hr⟩
  · exact ⟨hi, hl, hlatch, fun _ => hov, fun _ => hp, ho, hr⟩
  · exact ⟨hi, hl, hlatch, hq, hb, ho, hr⟩
  · exact ⟨hi, hl, hlatch, hq, hb, ho, hr⟩

/-- What is left to check where a refresh ends or is skipped: the latch is idle, and a trigger only queued under QUEUE1. -/
theorem finish_controlled (hl : s.latch = false) (hq : s.pending = true → s.params.overlap = .queue1) :
    Controlled (finish s) := by
  rcases finish_cases s with ⟨-, hf⟩ | ⟨hn, hf⟩
  · rw [hf]
    exact ⟨nofun, nofun, by simp [hl], nofun, nofun, nofun, nofun⟩
  · rw [hf]
    exact ⟨nofun, nofun, by simp [hl], hq, by simp [hn], nofun, nofun⟩

theorem afterCheck_controlled (hpos : 0 < s.rowsize) (hl : s.latch = false)
    (hq : s.pending = true → s.params.overlap = .queue1) : Controlled (afterCheck s) := by
  rcases afterCheck_cases s with ⟨hi, ha⟩ | ⟨hi, ha⟩
  · rw [ha]
    exact ⟨fun _ => hi, nofun, by simp [hl], hq, nofun, nofun, by rintro _ _ ⟨⟩; exact hpos⟩
  · rw [ha]
    exact ⟨nofun, fun _ => hi, by simp [hl], hq, nofun, nofun, nofun⟩

/-- NextShift keeps the row within ROWSIZE, stays past the lazy init and neither ends the refresh nor darkens the output. -/
theorem nextShift_spec {r i : Nat} (k : Fin 4) (hi : i < r) :
    (∃ j l, j < r ∧ nextShift r i k = .shift j l) ∨ nextShift r i k = .oeOff := by
  unfold nextShift
  split
  · exact .inl ⟨i, _, hi, rfl⟩
  · split
    · next hj => exact .inl ⟨i + 1, _, hj, rfl⟩
    · exact .inr rfl

theorem microStep_controlled (hg : Geometry s) (hs : Controlled s) (h : microStep s = .next t) : Controlled t := by
  obtain ⟨hi, hl, hlatch, hq, hb, ho, hr⟩ := hs
  rcases microStep_next_cases h with ⟨hp, rfl⟩ | ⟨hp, rfl⟩ | ⟨hp, rfl⟩ | ⟨hp, rfl⟩ | ⟨i, k, hp, -, rfl⟩ | ⟨hp, rfl⟩ |
    ⟨hp, rfl⟩ | ⟨hp, rfl⟩ | ⟨hp, rfl⟩ | ⟨hp, rfl⟩ | ⟨hp, rfl⟩ | ⟨hp, rfl⟩
  case inl => exact ⟨hi, hl, hlatch, hq, hb, ho, hr⟩
  all_goals rw [hp] at hi hl hlatch ho
  case inr.inl =>
    have hlow : s.latch = false := by simpa using hlatch
    obtain ⟨e, he, -⟩ := busyTaken_spec s
    rw [he]
    split
    · exact finish_controlled (s := s.setEnv e) hlow hq
    · exact afterCheck_controlled (s := s.setEnv e) (rowsize_pos (s := s) hg) hlow hq
  · exact ⟨nofun, hl, by simpa using hlatch, hq, fun _ => nofun, nofun, nofun⟩
  · exact ⟨fun _ => rfl, nofun, by simpa using hlatch, hq, fun _ => nofun, nofun,
      by rintro _ _ ⟨⟩; exact rowsize_pos (s := s) hg⟩
  · rcases nextShift_spec k (hr i k hp) with ⟨j, l, hj, hn⟩ | hn
    · rw [hn]
      exact ⟨hi, nofun, by simpa using hlatch, hq, fun _ => nofun, nofun, by rintro _ _ ⟨⟩; exact hj⟩
    · rw [hn]
      exact ⟨hi, nofun, by simpa using hlatch, hq, fun _ => nofun, nofun, nofun⟩
  · exact ⟨hi, nofun, by simpa using hlatch, hq, fun _ => nofun, fun _ => rfl, nofun⟩
  · exact ⟨hi, nofun, by simp, hq, fun _ => nofun, ho, nofun⟩
  · exact ⟨hi, nofun, by simp, hq, fun _ => nofun, ho, nofun⟩
  · exact ⟨hi, nofun, by simpa using hlatch, hq, fun _ => nofun, ho, nofun⟩
  · exact ⟨hi, nofun, by simpa using hlatch, hq, fun _ => nofun, ho, nofun⟩
  · exact ⟨hi, nofun, by simpa using hlatch, hq, fun _ => nofun, ho, nofun⟩
  · exact finish_controlled (by simpa using hlatch) hq

/-! ### The invariant -/

theorem inv_setEnv (e : Env) (hs : Inv s) : Inv (s.setEnv e) :=
  ⟨geometry_of_fixedAtReset (s := s) rfl hs.geometry, hs.fb_canonical, hs.fb_bounded, hs.init_done, hs.lazy_init,
    hs.latch_window, hs.pending_queue, hs.pending_busy, hs.output_dark, hs.shift_row⟩

theorem runWord_inv (w : Word) (hs : Inv s) (h : runWord w s = .next t) : Inv t := by
  obtain ⟨hm, hc⟩ := inv_iff.1 hs
  exact inv_iff.2 ⟨runWord_stored w hm h, runWord_controlled w hc h⟩

theorem microStep_inv (hs : Inv s) (h : microStep s = .next t) : Inv t := by
  obtain ⟨hm, hc⟩ := inv_iff.1 hs
  exact inv_iff.2 ⟨stored_of_same_fb (microStep_fixedAtReset h) (microStep_keeps h).1 hm,
    microStep_controlled hs.geometry hc h⟩

theorem resetWith_inv {c : Params} (n : Nat) (e : Env) (h₁ : 1 ≤ c.panels) (h₂ : c.panels ≤ 256) :
    Inv (State.resetWith c n e) where
  geometry := ⟨h₁, h₂, rowsizeOf_eq _, row1Of_eq _, row2Of_eq _, row3Of_eq _, fbSizeOf_eq _⟩
  fb_canonical := State.resetWith_fb_wf c n e
  fb_bounded := nofun
  init_done := nofun
  lazy_init := nofun
  latch_window := ⟨nofun, nofun⟩
  pending_queue := nofun
  pending_busy := nofun
  output_dark := nofun
  shift_row := nofun

/-- Settles O38: `step_keeps`, with a rule for each kind of step. -/
theorem everyStepKeepsTheInvariant : Obligations.EveryStepKeepsTheInvariant :=
  fun _ _ => step_keeps (fun _ => inv_setEnv) (fun w _ _ => runWord_inv w) (fun _ _ => microStep_inv)
    (fun _ => resetWith_inv)

/-! ### Nothing stops a step -/

theorem exec_goesOn (hg : Geometry s) (i : Instr) : ∃ t, exec i s = .next t := by
  cases i with
  | refresh =>
    rcases execRefresh_cases s with ⟨-, he⟩ | ⟨-, he⟩
    · exact ⟨_, he⟩
    · exact ⟨_, he⟩
  | setPixel p x y on =>
    cases hr : inRange s p x y with
    | true => exact ⟨_, exec_setPixel_inRange on hg hr⟩
    | false => exact ⟨_, exec_setPixel_outOfRange on hr⟩
  | getPixel p x y =>
    cases hr : inRange s p x y with
    | true => exact ⟨_, exec_getPixel_inRange hg hr⟩
    | false => exact ⟨_, exec_getPixel_outOfRange hr⟩

theorem runWord_goesOn (hg : Geometry s) (w : Word) : ∃ t, runWord w s = .next t := by
  rcases runWord_cases w s with ⟨r, -, hw⟩ | ⟨i, -, hw⟩
  · exact ⟨_, hw⟩
  · rw [hw]
    exact exec_goesOn hg i

/-- SHIFT alone could stop, and its row is within ROWSIZE. -/
theorem microStep_goesOn (hs : Inv s) : ∃ t, microStep s = .next t := by
  cases hp : s.phase with
  | idle => exact ⟨_, microStep_idle hp⟩
  | check => exact ⟨_, microStep_check hp⟩
  | cfgFreq => exact ⟨_, microStep_cfgFreq hp⟩
  | cfgMode => exact ⟨_, microStep_cfgMode hp⟩
  | shift i k => exact ⟨_, microStep_shift hp (shiftIndex_lt_fbSize k hs.geometry (hs.shift_row i k hp))⟩
  | oeOff => exact ⟨_, microStep_oeOff hp⟩
  | latchHi => exact ⟨_, microStep_latchHi hp⟩
  | latchLo => exact ⟨_, microStep_latchLo hp⟩
  | rowA => exact ⟨_, microStep_rowA hp⟩
  | rowB => exact ⟨_, microStep_rowB hp⟩
  | advance => exact ⟨_, microStep_advance hp⟩
  | oeOn => exact ⟨_, microStep_oeOn hp⟩

/-- Settles O44: a word and a micro-step go on under the invariant, and a reset goes on or is refused by `applyReset`. -/
theorem nothingStopsTheBlock : Obligations.NothingStopsTheBlock := by
  intro s hs
  rcases nextMove_cases s with ⟨hm, -⟩ | ⟨w, -, hm, -⟩ | ⟨hm, -⟩ | ⟨c, -, hm, -⟩
  · exact .inl ⟨_, step_wait hm⟩
  · obtain ⟨e, he, -⟩ := takeWord_useTurn_spec s
    rw [step_port hm, he]
    exact .inl (runWord_goesOn (inv_setEnv e hs).geometry w)
  · obtain ⟨e, he, -⟩ := useTurn_spec s
    rw [step_engine hm, he]
    exact .inl (microStep_goesOn (inv_setEnv e hs))
  · rw [step_reset hm]
    rcases applyReset_cases c (useTurn s) with ⟨-, -, ha⟩ | ⟨hn, ha⟩
    · exact .inl ⟨_, ha⟩
    · exact .inr ⟨c, hm, hn, ha⟩

end Sys2Proof.Machine
end

section
/-! PROOFS. What every step keeps of `seq`, the row-select latches and the trace (R37, R124, R156). -/

namespace Sys2Proof.Machine

open Sys2Proof.Safety

variable {s t : State}

/-! ### Steps that leave the scan as it stands -/

/-- The two states differ at most in what no refresh has written: `phase` may have gone from IDLE to CHECK. -/
structure SameScan (s t : State) : Prop where
  params : t.params = s.params
  seq : t.seq = s.seq
  initDone : t.initDone = s.initDone
  a : t.a = s.a
  b : t.b = s.b
  trace : t.trace = s.trace
  phase : t.phase = s.phase ∨ (s.phase = .idle ∧ t.phase = .check)

theorem sameScan_setEnv (s : State) (e : Env) : SameScan s (s.setEnv e) := ⟨rfl, rfl, rfl, rfl, rfl, rfl, .inl rfl⟩

theorem runWord_sameScan {w : Word} (h : runWord w s = .next t) : SameScan s t := by
  have hp : t.phase = s.phase ∨ (s.phase = .idle ∧ t.phase = .check) :=
    (runWord_phase h).imp_right fun ⟨hi, hc, _⟩ => ⟨hi, hc⟩
  obtain ⟨m, v, x, r, rfl⟩ := runWord_portFrame h
  exact ⟨rfl, rfl, rfl, rfl, rfl, rfl, hp⟩

theorem SameScan.phase_eq_iff (h : SameScan s t) {x : Phase} (hi : x ≠ .idle) (hc : x ≠ .check) :
    t.phase = x ↔ s.phase = x := by
  rcases h.phase with hp | ⟨hs, ht⟩
  · rw [hp]
  · rw [hs, ht]
    exact ⟨fun h => absurd h.symm hc, fun h => absurd h.symm hi⟩

theorem SameScan.completed_eq (h : SameScan s t) : completed t = completed s := by rw [completed, h.trace, completed]

/-- What `step_keeps` asks of a property that reads the scan only. -/
theorem step_keeps_of_sameScan {P : State → Prop} (hsame : ∀ {s t}, SameScan s t → P s → P t)
    (hmicro : ∀ s t, P s → microStep s = .next t → P t)
    (hreset : ∀ c n e, 1 ≤ c.panels → c.panels ≤ 256 → P (State.resetWith c n e)) (hs : P s) (h : step s = .next t) :
    P t :=
  step_keeps (fun s e => hsame (sameScan_setEnv s e)) (fun _ _ _ hs hw => hsame (runWord_sameScan hw) hs) hmicro hreset hs h

/-! ### The count of refreshes -/

/-- OE_ON alone ends a refresh (R154, R156). -/
theorem microStep_completed (h : microStep s = .next t) :
    completed t = completed s + if s.phase = .oeOn then 1 else 0 := by
  rcases microStep_next_cases h with ⟨hp, rfl⟩ | ⟨hp, -⟩ | ⟨hp, rfl⟩ | ⟨hp, rfl⟩ | ⟨i, k, hp, -, rfl⟩ | ⟨hp, rfl⟩ |
    ⟨hp, rfl⟩ | ⟨hp, rfl⟩ | ⟨hp, rfl⟩ | ⟨hp, rfl⟩ | ⟨hp, rfl⟩ | ⟨hp, rfl⟩
  case inr.inl =>
    obtain ⟨v, x, e, rfl⟩ := microStep_check_frame hp h
    simp [completed, hp]
  on_goal -1 =>
    obtain ⟨v, x, hf⟩ := finish_frame ((s.setOe true).emit (.pin .oe true))
    rw [hf]
  all_goals simp [completed, hp, isRefreshEnd]

/-- The way through the row-select writes to OE_ON, forwards and backwards (R151 to R154). -/
theorem microStep_phase_to_end (h : microStep s = .next t) :
    (t.phase = .rowB ↔ s.phase = .rowA) ∧ (t.phase = .advance ↔ s.phase = .rowB) ∧
      (t.phase = .oeOn ↔ s.phase = .advance) := by
  obtain ⟨hB, hadv, hon⟩ := outputIsReenabledAtTheEnd.1 s t h
  refine ⟨⟨hB, fun hp => ?_⟩, ⟨hadv, fun hp => ?_⟩, ⟨hon, fun hp => ?_⟩⟩
  · cases (microStep_rowA hp).symm.trans h
    rfl
  · cases (microStep_rowB hp).symm.trans h
    rfl
  · cases (microStep_advance hp).symm.trans h
    rfl

theorem SameScan.seqTracks (h : SameScan s t) (hs : SeqTracks s) : SeqTracks t := by
  have hp : t.phase = .oeOn ↔ s.phase = .oeOn := h.phase_eq_iff nofun nofun
  simpa only [SeqTracks, h.seq, h.completed_eq, hp] using hs

/-- ADVANCE counts the running refresh before OE_ON ends it. -/
theorem microStep_seqTracks (hs : SeqTracks s) (h : microStep s = .next t) : SeqTracks t := by
  obtain ⟨-, -, hon⟩ := microStep_phase_to_end h
  unfold SeqTracks at hs ⊢
  simp only [microStep_seq h, microStep_completed h, hon]
  by_cases ha : s.phase = .advance
  · have hadd : (s.seq + 1#2).toNat = (s.seq.toNat + 1) % 4 := BitVec.toNat_add s.seq 1#2
    simp only [ha, reduceCtorEq, if_true, if_false] at hs ⊢
    omega
  · simp only [ha, if_false]
    exact hs

theorem resetWith_seqTracks (c : Params) (n : Nat) (e : Env) : SeqTracks (State.resetWith c n e) := rfl

/-- Settles O40: ADVANCE by `microStep_seqTracks`; what is no micro-step leaves the scan or is a reset. -/
theorem everyStepKeepsSeqTheCountOfRefreshes : Obligations.EveryStepKeepsSeqTheCountOfRefreshes :=
  fun _ _ => step_keeps_of_sameScan SameScan.seqTracks (fun _ _ => microStep_seqTracks)
    (fun c n e _ _ => resetWith_seqTracks c n e)

/-! ### The row-select latches -/

theorem SameScan.rowLines (h : SameScan s t) (hs : RowLines s) : RowLines t := by
  have hp : ∀ {x : Phase}, x ≠ .idle → x ≠ .check → (t.phase = x ↔ s.phase = x) := h.phase_eq_iff
  have hB : t.phase = .rowB ↔ s.phase = .rowB := hp nofun nofun
  have hadv : t.phase = .advance ↔ s.phase = .advance := hp nofun nofun
  have hon : t.phase = .oeOn ↔ s.phase = .oeOn := hp nofun nofun
  obtain ⟨h₁, h₂, h₃, h₄⟩ := hs
  constructor <;> simpa only [hB, hadv, hon, h.a, h.b, h.seq, h.completed_eq, ne_eq]

/-- ROW_A and ROW_B write the pair of the group driven, ADVANCE makes it the one before `seq`, and OE_ON completes it. -/
theorem microStep_rowLines_kept (hs : RowLines s) (h : microStep s = .next t) : RowLines t := by
  obtain ⟨ha, hb⟩ := microStep_rowLines h
  have hq := microStep_seq h
  have hn := microStep_completed h
  obtain ⟨fromA, fromB, fromAdvance⟩ := microStep_phase_to_end h
  constructor
  · intro ht
    have hp : s.phase = .rowA := fromA.1 ht
    simp [ha, hq, hp, rowSelect]
  · intro ht
    exact rowB_leaves_rowSelect hs (fromB.1 ht) h
  · intro ht
    have hp : s.phase = .advance := fromAdvance.1 ht
    simp [ha, hb, hq, hp, hs.at_advance hp]
  · intro hB hadv hon hpos
    rw [ne_eq, fromA] at hB
    rw [ne_eq, fromB] at hadv
    rw [ne_eq, fromAdvance] at hon
    rw [ha, hb, hq, if_neg hB, if_neg hadv, if_neg hon]
    by_cases hp : s.phase = .oeOn
    · exact hs.at_oeOn hp
    · rw [hn, if_neg hp] at hpos
      exact hs.elsewhere hadv hon hp hpos

theorem resetWith_rowLines (c : Params) (n : Nat) (e : Env) : RowLines (State.resetWith c n e) :=
  ⟨nofun, nofun, nofun, fun _ _ _ h => absurd h (Nat.lt_irrefl 0)⟩

/-- Settles O42: the micro-steps by `microStep_rowLines_kept`; what is none leaves the scan or is a reset. -/
theorem everyStepKeepsTheRowLines : Obligations.EveryStepKeepsTheRowLines :=
  fun _ _ => step_keeps_of_sameScan SameScan.rowLines (fun _ _ => microStep_rowLines_kept)
    (fun c n e _ _ => resetWith_rowLines c n e)

theorem selectedGroup_of_rowSelect {q : BitVec 2} (h : (s.a, s.b) = rowSelect q) : selectedGroup s = q.toNat := by
  obtain ⟨-, -, -, -, hq⟩ := rowSelectEncodesTheGroup
  rw [(hq q).2, ← h, selectedGroup]

/-- Settles O43: the latches hold the pair of `seq - 1`, which is `seq + 3` modulo 4. -/
theorem litGroupIsTheOneBeforeSeq : Obligations.LitGroupIsTheOneBeforeSeq := by
  intro s hs hp hn
  have hpair : (s.a, s.b) = rowSelect (s.seq - 1#2) :=
    hs.elsewhere (by simp [hp]) (by simp [hp]) (by simp [hp]) hn
  rw [selectedGroup_of_rowSelect hpair, BitVec.toNat_sub, Nat.add_comm]
  rfl

/-! ### The trace -/

/-- The trace read one event further. -/
theorem readTrace_append {c : Params} {l : List Event} {r r' : TraceRead} {e : Event} (h : readTrace c l = some r)
    (he : readEvent c r e = some r') : readTrace c (l ++ [e]) = some r' := by
  unfold readTrace at h ⊢
  rw [List.foldl_append, h]
  exact he

theorem SameScan.traceInPattern (h : SameScan s t) (hs : TraceInPattern s) : TraceInPattern t := by
  have hg : drivenGroup t = drivenGroup s := by
    simp only [drivenGroup, h.phase_eq_iff (x := .oeOn) nofun nofun, h.seq]
  have hpos : posOfPhase t = posOfPhase s := by
    rcases h.phase with hp | ⟨hp, hc⟩
    · simp only [posOfPhase, hp, h.initDone, h.params]
    · simp only [posOfPhase, hp, hc, h.initDone]
  rw [TraceInPattern, h.params, h.trace, hg, hpos]
  exact hs

theorem finish_traceInPattern (hi : s.initDone = true)
    (hs : readTrace s.params s.trace = some { group := s.seq, pos := .bytes 0 }) : TraceInPattern (finish s) := by
  rcases finish_cases s with ⟨-, hf⟩ | ⟨-, hf⟩
  · simpa [TraceInPattern, hf, drivenGroup, posOfPhase, hi] using hs
  · simpa [TraceInPattern, hf, drivenGroup, posOfPhase, hi] using hs

theorem check_traceInPattern (hp : s.phase = .check) (hs : TraceInPattern s) (h : microStep s = .next t) :
    TraceInPattern t := by
  unfold TraceInPattern at hs ⊢
  obtain ⟨e, -, -, ⟨-, -, hm⟩ | ⟨-, -, hm⟩ | ⟨-, hi, hm⟩ | ⟨-, hi, hm⟩⟩ := microStep_check_cases hp
  all_goals cases hm.symm.trans h
  · simpa [drivenGroup, posOfPhase, hp] using hs
  · simpa [drivenGroup, posOfPhase, hp] using hs
  · simpa [drivenGroup, posOfPhase, hp, hi] using hs
  · simpa [drivenGroup, posOfPhase, hp, hi] using hs

/-- A byte of a row within ROWSIZE is one of the 16·P bytes, and NextShift is where the pattern stands after it. -/
theorem shift_traceInPattern {i : Nat} {k : Fin 4} {v : Byte} (hg : Geometry s) (hi : i < s.rowsize)
    (hp : s.phase = .shift i k) (hs : TraceInPattern s) :
    TraceInPattern ((s.emit (.byte v)).setPhase (nextShift s.rowsize i k)) := by
  have hrow : s.rowsize = 4 * s.params.panels := hg.rowsize_eq
  have hk : k.val < 4 := k.isLt
  have hn : 4 * i + k.val < 16 * s.params.panels := by omega
  have hs : readTrace s.params s.trace = some { group := s.seq, pos := .bytes (4 * i + k.val) } := by
    simpa [TraceInPattern, drivenGroup, posOfPhase, hp] using hs
  have hread : readTrace s.params (s.trace ++ [.byte v]) = some { group := s.seq, pos := .bytes (4 * i + k.val + 1) } :=
    readTrace_append hs (if_pos hn)
  unfold nextShift
  split
  · next hk =>
    have hval : (k + 1).val = k.val + 1 := by omega
    simpa [TraceInPattern, drivenGroup, posOfPhase, hval, ← Nat.add_assoc] using hread
  · split
    · have hpos : 4 * i + k.val + 1 = 4 * (i + 1) := by omega
      simpa [TraceInPattern, drivenGroup, posOfPhase, hpos] using hread
    · have hpos : 4 * i + k.val + 1 = 16 * s.params.panels := by omega
      simpa [TraceInPattern, drivenGroup, posOfPhase, hpos] using hread

/-- Each micro-step emits the next event of the pattern, or none. -/
theorem microStep_traceInPattern (hi : Inv s) (hs : TraceInPattern s) (h : microStep s = .next t) : TraceInPattern t := by
  have hread : readTrace s.params s.trace = some { group := drivenGroup s, pos := posOfPhase s } := hs
  unfold drivenGroup posOfPhase at hread
  rcases microStep_next_cases h with ⟨hp, rfl⟩ | ⟨hp, -⟩ | ⟨hp, rfl⟩ | ⟨hp, rfl⟩ | ⟨i, k, hp, -, rfl⟩ | ⟨hp, rfl⟩ |
    ⟨hp, rfl⟩ | ⟨hp, rfl⟩ | ⟨hp, rfl⟩ | ⟨hp, rfl⟩ | ⟨hp, rfl⟩ | ⟨hp, rfl⟩
  all_goals simp only [hp, reduceCtorEq, if_false, if_true] at hread
  · exact hs
  · exact check_traceInPattern hp hs h
  · exact readTrace_append hread (if_pos rfl)
  · exact readTrace_append hread (if_pos rfl)
  · exact shift_traceInPattern hi.geometry (hi.shift_row i k hp) hp hs
  · exact readTrace_append hread (if_pos rfl)
  · exact readTrace_append hread rfl
  · exact readTrace_append hread rfl
  · exact readTrace_append hread (if_pos rfl)
  · exact readTrace_append hread (if_pos rfl)
  · have hgroup : drivenGroup ((s.setSeq (s.seq + 1#2)).setPhase .oeOn) = s.seq := BitVec.add_sub_cancel s.seq 1#2
    rw [TraceInPattern, hgroup]
    exact hread
  · have hinit : s.initDone = true := hi.init_done (by rw [hp]; rfl)
    refine finish_traceInPattern hinit (readTrace_append hread ?_)
    simp [readEvent]

theorem resetWith_traceInPattern (c : Params) (n : Nat) (e : Env) : TraceInPattern (State.resetWith c n e) := rfl

/-- Settles O41: with the invariant at its side, the pattern is kept by every micro-step; what is none leaves the scan or is
a reset. -/
theorem everyStepKeepsTheTraceInPattern : Obligations.EveryStepKeepsTheTraceInPattern := by
  intro s t hi hs h
  have keeps : Inv t ∧ TraceInPattern t :=
    step_keeps (P := fun s => Inv s ∧ TraceInPattern s)
      (fun s e ⟨hi, hs⟩ => ⟨inv_setEnv e hi, (sameScan_setEnv s e).traceInPattern hs⟩)
      (fun w _ _ ⟨hi, hs⟩ hw => ⟨runWord_inv w hi hw, (runWord_sameScan hw).traceInPattern hs⟩)
      (fun _ _ ⟨hi, hs⟩ hm => ⟨microStep_inv hi hm, microStep_traceInPattern hi hs hm⟩)
      (fun c n e h₁ h₂ => ⟨resetWith_inv n e h₁ h₂, resetWith_traceInPattern c n e⟩) ⟨hi, hs⟩ h
  exact keeps.2

/-! ### Reset -/

theorem resetWith_meets_every_invariant {c : Params} (n : Nat) (e : Env) (h₁ : 1 ≤ c.panels) (h₂ : c.panels ≤ 256) :
    Inv (State.resetWith c n e) ∧ SeqTracks (State.resetWith c n e) ∧ RowLines (State.resetWith c n e) ∧
      TraceInPattern (State.resetWith c n e) :=
  ⟨resetWith_inv n e h₁ h₂, resetWith_seqTracks c n e, resetWith_rowLines c n e, resetWith_traceInPattern c n e⟩

/-- Settles O39: `State.reset` is the reset state of `Config.launch`, whose P is 1. -/
theorem resetMeetsEveryInvariant : Obligations.ResetMeetsEveryInvariant :=
  ⟨resetWith_meets_every_invariant 0 Env.empty (by decide) (by decide), fun _ => resetWith_meets_every_invariant⟩

end Sys2Proof.Machine
end

section
/-! PROOFS. Command words read back, and the frame buffer pixel by pixel (20_memory.md, 30_encoding.md, 40_framebuffer.md). -/

namespace Sys2Proof

open Sys2Proof.Machine

/-! ### Command words -/

/-- Settles O1: the decoder run on each word. -/
theorem specWordsDecode : Obligations.SpecWordsDecode :=
  ⟨rfl, rfl, rfl, rfl, rfl, rfl, rfl, rfl, rfl, rfl, rfl, rfl⟩

theorem panelField_lt (w : Word) : panelField w < 256 := (w.extractLsb' 16 8).isLt

theorem xField_lt (w : Word) : xField w < 256 := (w.extractLsb' 8 8).isLt

theorem yField_lt (w : Word) : yField w < 256 := (w.extractLsb' 0 8).isLt

theorem encode_of_setPixel_pattern {w : Word} (h : w.toNat / 2 ^ 25 = 0b0010000) :
    encode (.setPixel (panelField w) (xField w) (yField w) (onField w)) = w := by
  apply BitVec.eq_of_toNat_eq
  have hop : (Instr.setPixel (panelField w) (xField w) (yField w) (onField w)).op.toNat = 2 := rfl
  rw [encode, packWord_toNat, hop, panelField_eq, xField_eq, yField_eq, onField_toNat]
  omega

theorem encode_of_getPixel_pattern {w : Word} (h : w.toNat / 2 ^ 24 = 0b00110000) :
    encode (.getPixel (panelField w) (xField w) (yField w)) = w := by
  apply BitVec.eq_of_toNat_eq
  have hop : (Instr.getPixel (panelField w) (xField w) (yField w)).op.toNat = 3 := rfl
  rw [encode, packWord_toNat, hop, panelField_eq, xField_eq, yField_eq, Bool.toNat_false]
  omega

/-- Settles O4: each of the three patterns packs back to the word, and a field of eight bits fits. -/
theorem encodeOfDecodeIsTheWord : Obligations.EncodeOfDecodeIsTheWord := by
  intro w i h
  rcases decode_eq_ok_iff.1 h with ⟨rfl, rfl⟩ | ⟨hw, rfl⟩ | ⟨hw, rfl⟩
  · exact ⟨rfl, rfl⟩
  · exact ⟨setPixel_wellFormed_iff.2 ⟨panelField_lt w, xField_lt w, yField_lt w⟩, encode_of_setPixel_pattern hw⟩
  · exact ⟨getPixel_wellFormed_iff.2 ⟨panelField_lt w, xField_lt w, yField_lt w⟩, encode_of_getPixel_pattern hw⟩

end Sys2Proof

namespace Sys2Proof.Machine

open Sys2Proof.Safety

variable {s t : State} {p x y : Nat}

/-! ### The pixel map -/

/-- Settles O9: the bound of R100. -/
theorem inRangePixelIndexIsInTheBuffer : Obligations.InRangePixelIndexIsInTheBuffer :=
  fun _ _ _ _ => pixelIndex_lt_fbSize

/-- Settles O10: the table by evaluation, and for a column's mask the table's bits at `x % 8`. -/
theorem maskTableOfTheColumns : Obligations.MaskTableOfTheColumns := by
  refine ⟨rfl, fun x b hb => ?_⟩
  have table : ∀ n < 8, ∀ b < 8, (mask n).getLsbD b = true ↔ b = 7 - n := by decide
  exact table (x % 8) (Nat.mod_lt x (by decide)) b hb

/-- The pixel's row is the quotient and its place in the row the remainder of the index by ROWSIZE. -/
theorem pixelIndex_div_mod (hg : Geometry s) (hr : inRange s p x y = true) :
    pixelIndex s p x y / s.rowsize = y ∧ pixelIndex s p x y % s.rowsize = 4 * p + x / 8 := by
  obtain ⟨hx, -, hp⟩ := (inRange_iff s p x y).1 hr
  have hrow : s.rowsize = 4 * s.params.panels := hg.rowsize_eq
  have hin : 4 * p + x / 8 < s.rowsize := by omega
  have hidx : pixelIndex s p x y = 4 * p + x / 8 + s.rowsize * y := by
    rw [pixelIndex, Nat.mul_comm]
    omega
  rw [hidx, Nat.add_mul_div_left _ _ (rowsize_pos hg), Nat.add_mul_mod_self_left, Nat.div_eq_of_lt hin,
    Nat.mod_eq_of_lt hin, Nat.zero_add]
  exact ⟨rfl, rfl⟩

theorem pixelIndex_injective {p' x' y' : Nat} (hg : Geometry s) (hr : inRange s p x y = true)
    (hr' : inRange s p' x' y' = true) (hi : pixelIndex s p x y = pixelIndex s p' x' y') (hx : x % 8 = x' % 8) :
    p = p' ∧ x = x' ∧ y = y' := by
  obtain ⟨hdiv, hmod⟩ := pixelIndex_div_mod hg hr
  obtain ⟨hdiv', hmod'⟩ := pixelIndex_div_mod hg hr'
  rw [hi] at hdiv hmod
  have hy : y = y' := hdiv.symm.trans hdiv'
  have hplace : 4 * p + x / 8 = 4 * p' + x' / 8 := hmod.symm.trans hmod'
  obtain ⟨hlt, -⟩ := (inRange_iff s p x y).1 hr
  obtain ⟨hlt', -⟩ := (inRange_iff s p' x' y').1 hr'
  omega

/-- The pixel of bit `b` of the byte at `j`: row `j / ROWSIZE`, and panel and column from the place in the row. -/
theorem exists_pixel_of_bit (hg : Geometry s) {j b : Nat} (hj : j < s.fbSize) (hb : b < 8) :
    ∃ p x y, inRange s p x y = true ∧ pixelIndex s p x y = j ∧ 7 - x % 8 = b := by
  have hrow : s.rowsize = 4 * s.params.panels := hg.rowsize_eq
  have hsize : s.fbSize = 64 * s.params.panels := hg.fbSize_eq
  have hy : j / s.rowsize < 16 := Nat.div_lt_of_lt_mul (by omega)
  have hplace : j % s.rowsize < s.rowsize := Nat.mod_lt j (rowsize_pos hg)
  have hdm : s.rowsize * (j / s.rowsize) + j % s.rowsize = j := Nat.div_add_mod j s.rowsize
  refine ⟨j % s.rowsize / 4, j % s.rowsize % 4 * 8 + (7 - b), j / s.rowsize, ?_, ?_, by omega⟩
  · exact (inRange_iff _ _ _ _).2 ⟨by omega, hy, by omega⟩
  · rw [pixelIndex, Nat.mul_comm (j / s.rowsize)]
    omega

/-- Settles O11: the map is one-to-one by quotient and remainder, and onto by `exists_pixel_of_bit`. -/
theorem pixelsMapOneToOneOntoTheBits : Obligations.PixelsMapOneToOneOntoTheBits :=
  fun _ hg => ⟨fun _ _ _ _ _ _ => pixelIndex_injective hg, fun _ _ => exists_pixel_of_bit hg⟩

/-! ### SETPIXEL and GETPIXEL -/

/-- All that SETPIXEL can do when it goes on: the pixel is written, or it was out of range and only a response is added. -/
theorem exec_setPixel_next {on : Bool} (h : exec (.setPixel p x y on) s = .next t) :
    (inRange s p x y = true ∧ t = pixelWritten s p x y on) ∨
      (inRange s p x y = false ∧ t = s.respond .outOfRange false) := by
  rcases execSetPixel_next h with ⟨hr, -, ht⟩ | ⟨hr, ht⟩
  · exact .inl ⟨hr, ht⟩
  · exact .inr ⟨hr, ht⟩

/-- Settles O13: the two cases of SETPIXEL, the first by the frame and the bytes of `pixelWritten`. -/
theorem setPixelFrame : Obligations.SetPixelFrame := by
  intro s t p x y on h
  rcases exec_setPixel_next h with ⟨hr, rfl⟩ | ⟨-, rfl⟩
  · refine ⟨rfl, ⟨_, rfl⟩, fun j hj => ?_, fun hn => ?_⟩
    · rw [pixelWritten_fbByte, if_neg hj]
    · cases hr.symm.trans hn
  · exact ⟨rfl, ⟨_, rfl⟩, fun _ _ => rfl, fun _ _ => rfl⟩

/-- A written pixel is one bit, and every other bit reads as before. -/
theorem pixelWritten_bit (s : State) (p x y : Nat) (on : Bool) (j : Nat) {b : Nat} (hb : b < 8) :
    ((pixelWritten s p x y on).fbByte j).getLsbD b =
      if j = pixelIndex s p x y ∧ b = 7 - x % 8 then on else (s.fbByte j).getLsbD b := by
  rw [pixelWritten_fbByte]
  by_cases hj : j = pixelIndex s p x y
  · subst hj
    rw [if_pos rfl, withPixel_bit _ x b on hb]
    simp
  · rw [if_neg hj, if_neg fun h => hj h.1]

/-- Settles O14: in range by `pixelWritten_bit`; out of range no byte is written. -/
theorem setPixelKeepsEveryOtherBit : Obligations.SetPixelKeepsEveryOtherBit := by
  intro s t p x y on h j b hb hn
  rcases exec_setPixel_next h with ⟨-, rfl⟩ | ⟨-, rfl⟩
  · rw [pixelWritten_bit s p x y on j hb, if_neg hn]
  · rfl

/-- Settles O17: GETPIXEL reads its bit, which is the one SETPIXEL wrote only if the two pixels are the same. -/
theorem getPixelAfterSetPixel : Obligations.GetPixelAfterSetPixel := by
  intro s t p x y p' x' y' on hg hr hr' h
  cases (exec_setPixel_inRange on hg hr).symm.trans h
  have hg' : Geometry (pixelWritten s p x y on) := geometry_of_fixedAtReset (s := s) rfl hg
  have hsame : pixelIndex s p' x' y' = pixelIndex s p x y ∧ 7 - x' % 8 = 7 - x % 8 ↔ p' = p ∧ x' = x ∧ y' = y := by
    constructor
    · rintro ⟨hi, hb⟩
      exact pixelIndex_injective hg hr' hr hi (by omega)
    · rintro ⟨rfl, rfl, rfl⟩
      exact ⟨rfl, rfl⟩
  have hbit := pixelWritten_bit s p x y on (pixelIndex s p' x' y') (b := 7 - x' % 8) (by omega)
  rw [if_congr hsame rfl rfl] at hbit
  rw [← hbit]
  exact exec_getPixel_inRange hg' hr'

/-- Settles O16: the response is a pixel with OK, or OUT_OF_RANGE. -/
theorem getPixelFrame : Obligations.GetPixelFrame := by
  intro s t p x y h
  rcases execGetPixel_next h with ⟨-, -, rfl⟩ | ⟨-, rfl⟩
  · refine ⟨_, rfl, ?_⟩
    rw [responseWord_pixelOf]
    split
    · exact .inr (.inr rfl)
    · exact .inl rfl
  · exact ⟨_, rfl, .inr (.inl rfl)⟩

end Sys2Proof.Machine
end

section
/-! PROOFS. Who steps next and on what (42_scan_engine.md section 3), and the environment's draw (10_state.md R32). -/

namespace Sys2Proof.Machine

open Sys2Proof.Safety

variable {s t : State}

/-! ### What a step runs -/

theorem commands_of_nextMove_port {w : Word} (h : nextMove s = .port w) :
    s.env.commands = w :: s.env.commands.tail := by
  rcases nextMove_cases s with ⟨hm, -⟩ | ⟨v, rest, hm, hc⟩ | ⟨hm, -⟩ | ⟨c, -, hm, -⟩
  case inr.inl =>
    cases hm.symm.trans h
    rw [hc, List.tail_cons]
  all_goals cases hm.symm.trans h

theorem step_port_ok {w : Word} {i : Instr} (hm : nextMove s = .port w) (hd : decode w = .ok i) :
    step s = exec i (takeWord (useTurn s)) := by
  rw [step_port hm, runWord, hd]

theorem step_port_error {w : Word} {r : IllegalWord} (hm : nextMove s = .port w) (hd : decode w = .error r) :
    step s = .next ((takeWord (useTurn s)).respond .illegalCommand false) := by
  rw [step_port hm, runWord, hd, raiseError_eq, errorStatus]

/-- Settles O6: the step's equation for each agent, with what using the turn and taking the word leave. -/
theorem stepRunsTheDecodedCommand : Obligations.StepRunsTheDecodedCommand := by
  refine ⟨fun s w hm => ?_, fun s hm => ?_⟩
  · obtain ⟨e, he, hc, hb, ht⟩ := takeWord_useTurn_spec s
    refine ⟨step_port hm, ?_, ?_, ?_, ?_, fun i => step_port_ok hm, fun r hd => ?_⟩
    · rw [he, State.setEnv_env, hc]
      exact commands_of_nextMove_port hm
    · rw [he]
      rfl
    · rw [he, State.setEnv_env, hb]
    · rw [he, State.setEnv_env, ht]
    · rw [step_port_error hm hd, State.respond, responseWord_illegalCommand, he, State.setEnv_responses]
  · obtain ⟨e, he, hc, hb, ht⟩ := useTurn_spec s
    refine ⟨step_engine hm, ?_⟩
    rw [he]
    exact ⟨rfl, hc, hb, ht⟩

/-! ### The choice of the agent -/

theorem nextMove_of_noReset (h : NoReset s) : nextMove s = agentMove s := by
  rcases hu : s.env.turns with _ | ⟨u, us⟩
  · simp [nextMove, hu]
  · have hn : ∀ c, u ≠ .reset c := h u (by simp [hu])
    cases u with
    | reset c => exact absurd rfl (hn c)
    | port => simp [nextMove, hu]
    | engine => simp [nextMove, hu]

theorem agentMove_idle_port {w : Word} {rest : List Word} (hc : s.env.commands = w :: rest) (hp : s.phase = .idle) :
    agentMove s = .port w := by
  simp [agentMove, hc, hp]

theorem agentMove_idle_wait (hc : s.env.commands = []) (hp : s.phase = .idle) : agentMove s = .wait := by
  simp [agentMove, hc, hp]

theorem agentMove_running_alone (hc : s.env.commands = []) (hp : s.phase ≠ .idle) : agentMove s = .engine := by
  simp [agentMove, hc]

theorem agentMove_running_both {w : Word} {rest : List Word} (hc : s.env.commands = w :: rest) (hp : s.phase ≠ .idle) :
    agentMove s = if portChosen s.env then .port w else .engine := by
  simp [agentMove, hc]

/-- Settles O7: who is enabled steps, and with both enabled the turn chooses. -/
theorem everyEnabledAgentCanBeChosen : Obligations.EveryEnabledAgentCanBeChosen := by
  refine ⟨fun s w rest hn hc hp => ⟨?_, ?_⟩, fun s hn hc hp => ?_, fun s w rest us hc hp => ⟨?_, ?_⟩, fun s c us => rfl⟩
  · rw [nextMove_of_noReset hn, agentMove_idle_port hc hp]
  · obtain ⟨e, he, ht, -⟩ := takeWord_useTurn_spec s
    rw [he, State.setEnv_env, ht, hc, List.tail_cons]
  · rw [nextMove_of_noReset hn, agentMove_running_alone hc hp]
  · exact agentMove_running_both (s := withTurns (.port :: us) s) hc hp
  · exact agentMove_running_both (s := withTurns (.engine :: us) s) hc hp

/-- Settles O8: with nothing enabled the move is to wait, which uses up the turn alone. -/
theorem idleMachineWaitsForTheEnvironment : Obligations.IdleMachineWaitsForTheEnvironment := by
  intro s hn hc hp
  obtain ⟨e, he, hec, heb, het⟩ := useTurn_spec s
  refine ⟨e, ?_, hec.trans hc, heb, het⟩
  rw [step_wait ((nextMove_of_noReset hn).trans (agentMove_idle_wait hc hp)), he]
  rfl

/-! ### The busy draw -/

/-- Settles O21: the two branches of the draw where the input exists or does not. -/
theorem busyDrawFollowsTheInput : Obligations.BusyDrawFollowsTheInput := by
  refine fun s => ⟨fun hn => ⟨busyValue_of_noInput hn, ?_⟩, fun v vs hi hb => ⟨?_, ?_⟩⟩
  · simp [busyTaken, hn]
  · simp [busyValue, hi, hb]
  · simp [busyTaken, hi, hb]

end Sys2Proof.Machine
end

section
/-! PROOFS. The bytes that a refresh reads, and how many micro-steps it has left (20_memory.md R54, 42_scan_engine.md
section 4). -/

namespace Sys2Proof.Machine

open Sys2Proof.Safety

variable {s t : State}

/-! ### The index that SHIFT reads -/

/-- OFF[k] is a whole number of row slices: 12, 8, 4 and 0 of them. -/
theorem rowOffset_eq_mul (hg : Geometry s) (k : Fin 4) : rowOffset s k = s.rowsize * (4 * (3 - k.val)) := by
  obtain ⟨-, -, hrow, hrow1, hrow2, hrow3, -⟩ := hg
  match k with
  | 0 => exact (show s.row3 = s.rowsize * 12 by omega)
  | 1 => exact (show s.row2 = s.rowsize * 8 by omega)
  | 2 => exact (show s.row1 = s.rowsize * 4 by omega)
  | 3 => rfl

/-- SHIFT(i, k) reads byte i of row slice `seq + 4·(3 − k)` (R157). -/
theorem shiftIndex_eq_slice (hg : Geometry s) (i : Nat) (k : Fin 4) :
    shiftIndex s i k = i + s.rowsize * (s.seq.toNat + 4 * (3 - k.val)) := by
  rw [shiftIndex, rowOffset_eq_mul hg, Nat.mul_add]
  omega

/-- Settles O50: the closed form with the factors of the product exchanged. -/
theorem byteStreamInClosedForm : Obligations.ByteStreamInClosedForm := by
  intro s n hg hn
  have hrow : s.rowsize = 4 * s.params.panels := hg.rowsize_eq
  have hk : (Fin.ofNat 4 n).val = n % 4 := rfl
  refine ⟨by omega, ?_⟩
  rw [shiftIndex_eq_slice hg, hk, Nat.add_comm, Nat.mul_comm]

theorem geometry_setSeq (q : BitVec 2) (hg : Geometry s) : Geometry (s.setSeq q) :=
  geometry_of_fixedAtReset (s := s) rfl hg

/-- The slice and the byte in it are quotient and remainder of the index by ROWSIZE. -/
theorem shiftIndex_div_mod (hg : Geometry s) {i : Nat} (k : Fin 4) (hi : i < s.rowsize) :
    shiftIndex s i k / s.rowsize = s.seq.toNat + 4 * (3 - k.val) ∧ shiftIndex s i k % s.rowsize = i := by
  rw [shiftIndex_eq_slice hg, Nat.add_mul_div_left _ _ (rowsize_pos hg), Nat.add_mul_mod_self_left, Nat.div_eq_of_lt hi,
    Nat.mod_eq_of_lt hi, Nat.zero_add]
  exact ⟨rfl, rfl⟩

/-- Slice number `d` is read with `seq = d % 4` and `k = 3 - d / 4`. -/
theorem exists_shift_of_index (hg : Geometry s) {j : Nat} (hj : j < s.fbSize) :
    ∃ (q : BitVec 2) (i : Nat) (k : Fin 4), i < s.rowsize ∧ shiftIndex (s.setSeq q) i k = j := by
  have hrow : s.rowsize = 4 * s.params.panels := hg.rowsize_eq
  have hsize : s.fbSize = 64 * s.params.panels := hg.fbSize_eq
  have hd : j / s.rowsize < 16 := Nat.div_lt_of_lt_mul (by omega)
  have slice : ∀ d < 16, d % 2 ^ 2 + 4 * (3 - (3 - d / 4)) = d := by omega
  refine ⟨BitVec.ofNat 2 (j / s.rowsize), j % s.rowsize, ⟨3 - j / s.rowsize / 4, Nat.lt_succ_of_le (Nat.sub_le 3 _)⟩,
    Nat.mod_lt j (rowsize_pos hg), ?_⟩
  rw [shiftIndex_eq_slice (geometry_setSeq _ hg), State.setSeq_rowsize, State.setSeq_seq, BitVec.toNat_ofNat, slice _ hd,
    Nat.mod_add_div]

theorem shiftIndex_injective (hg : Geometry s) {q q' : BitVec 2} {i i' : Nat} {k k' : Fin 4} (hi : i < s.rowsize)
    (hi' : i' < s.rowsize) (h : shiftIndex (s.setSeq q) i k = shiftIndex (s.setSeq q') i' k') :
    q = q' ∧ i = i' ∧ k = k' := by
  obtain ⟨hdiv, hmod⟩ := shiftIndex_div_mod (geometry_setSeq q hg) k hi
  obtain ⟨hdiv', hmod'⟩ := shiftIndex_div_mod (geometry_setSeq q' hg) k' hi'
  rw [h] at hdiv hmod
  have hslice : q.toNat + 4 * (3 - k.val) = q'.toNat + 4 * (3 - k'.val) := hdiv.symm.trans hdiv'
  have hq : q.toNat < 4 := q.isLt
  have hq' : q'.toNat < 4 := q'.isLt
  exact ⟨BitVec.eq_of_toNat_eq (by omega), hmod.symm.trans hmod', Fin.ext (by omega)⟩

/-- Settles O51: the bound, the slice of each index, and its uniqueness by quotient and remainder. -/
theorem fourRefreshesReadEveryByteOnce : Obligations.FourRefreshesReadEveryByteOnce :=
  fun _ hg => ⟨fun q _ k => shiftIndex_lt_fbSize k (geometry_setSeq q hg), fun _ => exists_shift_of_index hg,
    fun _ _ _ _ _ _ => shiftIndex_injective hg⟩

/-! ### The micro-steps left -/

theorem finish_phase (s : State) : (finish s).phase = .idle ∨ (finish s).phase = .check := by
  rcases finish_cases s with ⟨-, hf⟩ | ⟨-, hf⟩
  · exact .inr (by rw [hf]; rfl)
  · exact .inl (by rw [hf]; rfl)

/-- NextShift leaves one byte fewer, OE_OFF after the last. -/
theorem nextShift_remainingSteps {i : Nat} {k : Fin 4} (v : Byte) (hg : Geometry s) (hi : i < s.rowsize)
    (hp : s.phase = .shift i k) :
    remainingSteps ((s.emit (.byte v)).setPhase (nextShift s.rowsize i k)) + 1 = remainingSteps s := by
  have hrow : s.rowsize = 4 * s.params.panels := hg.rowsize_eq
  have hk : k.val < 4 := k.isLt
  have hs : remainingSteps s = 16 * s.params.panels - (4 * i + k.val) + 7 := by simp [remainingSteps, hp]
  rw [hs]
  unfold nextShift
  split
  · next hk =>
    have hval : (k + 1).val = k.val + 1 := by omega
    simp only [remainingSteps, State.setPhase_phase, State.setPhase_params, State.emit_params, hval]
    omega
  · split
    · simp only [remainingSteps, State.setPhase_phase, State.setPhase_params, State.emit_params, Fin.val_zero]
      omega
    · simp only [remainingSteps, State.setPhase_phase]
      omega

/-- Settles O49: phase by phase, the bytes by `nextShift_remainingSteps`. -/
theorem eachMicroStepLeavesOneFewer : Obligations.EachMicroStepLeavesOneFewer := by
  intro s t hs hidle hcheck h
  rcases microStep_next_cases h with ⟨hp, -⟩ | ⟨hp, -⟩ | ⟨hp, rfl⟩ | ⟨hp, rfl⟩ | ⟨i, k, hp, -, rfl⟩ | ⟨hp, rfl⟩ |
    ⟨hp, rfl⟩ | ⟨hp, rfl⟩ | ⟨hp, rfl⟩ | ⟨hp, rfl⟩ | ⟨hp, rfl⟩ | ⟨hp, rfl⟩
  · exact absurd hp hidle
  · exact absurd hp hcheck
  case inr.inr.inr.inr.inl =>
    exact .inr ⟨by simp [hp], nextShift_remainingSteps _ hs.geometry (hs.shift_row i k hp) hp⟩
  on_goal -1 => exact .inl ⟨hp, finish_phase _⟩
  all_goals exact .inr ⟨by simp [hp], by simp [remainingSteps, hp]⟩

end Sys2Proof.Machine
end

section
/-! PROOFS. A refresh that nothing interleaves with, from CHECK to its end, and what it leaves outside the block
(42_scan_engine.md section 4). -/

namespace Sys2Proof.Machine

open Sys2Proof.Safety

variable {s t u : State}

/-! ### Runs in which the ScanEngine is alone -/

/-- The environment has no word waiting and asks for no reset. -/
def Quiet (e : Env) : Prop := e.commands = [] ∧ ∀ v ∈ e.turns, ∀ c, v ≠ .reset c

/-- In every quiet environment, `n` steps lead from `s` to `t`, in an environment that is quiet again. -/
def RunsTo (n : Nat) (s t : State) : Prop :=
  ∀ e, Quiet e → ∃ e', Quiet e' ∧ runSteps n (s.setEnv e) = .next (t.setEnv e')

theorem runsTo_zero (s : State) : RunsTo 0 s s := fun e he => ⟨e, he, rfl⟩

theorem RunsTo.trans {m n : Nat} (h : RunsTo m s t) (h' : RunsTo n t u) : RunsTo (m + n) s u := by
  intro e he
  obtain ⟨e₁, he₁, h₁⟩ := h e he
  obtain ⟨e₂, he₂, h₂⟩ := h' e₁ he₁
  exact ⟨e₂, he₂, (runSteps_add n h₁).trans h₂⟩

/-- With no word and no reset, a running refresh makes its next micro-step. -/
theorem step_alone (hq : Quiet s.env) (hp : s.phase ≠ .idle) :
    ∃ e, Quiet e ∧ useTurn s = s.setEnv e ∧ step s = microStep (s.setEnv e) := by
  obtain ⟨hc, hn⟩ := hq
  obtain ⟨e, he, hec, -, het⟩ := useTurn_spec s
  have hm : nextMove s = .engine := (nextMove_of_noReset hn).trans (agentMove_running_alone hc hp)
  refine ⟨e, ⟨hec.trans hc, fun v hv => hn v ?_⟩, he, by rw [step_engine hm, he]⟩
  rw [het] at hv
  exact List.mem_of_mem_tail hv

theorem finish_setEnv (s : State) (e : Env) : finish (s.setEnv e) = (finish s).setEnv e := by
  rcases finish_cases s with ⟨hq, hf⟩ | ⟨hq, hf⟩
  · rw [hf]
    exact finish_of_pending (s := s.setEnv e) hq
  · rw [hf]
    exact finish_of_not_pending (s := s.setEnv e) hq

/-- No micro-step but CHECK reads or writes the environment (R143, R161). -/
theorem microStep_setEnv (e : Env) (hc : s.phase ≠ .check) (h : microStep s = .next t) :
    microStep (s.setEnv e) = .next (t.setEnv e) := by
  rcases microStep_next_cases h with ⟨hp, rfl⟩ | ⟨hp, -⟩ | ⟨hp, rfl⟩ | ⟨hp, rfl⟩ | ⟨i, k, hp, hj, rfl⟩ | ⟨hp, rfl⟩ |
    ⟨hp, rfl⟩ | ⟨hp, rfl⟩ | ⟨hp, rfl⟩ | ⟨hp, rfl⟩ | ⟨hp, rfl⟩ | ⟨hp, rfl⟩
  · exact microStep_idle hp
  · exact absurd hp hc
  · exact microStep_cfgFreq hp
  · exact microStep_cfgMode hp
  · exact microStep_shift (s := s.setEnv e) hp hj
  · exact microStep_oeOff hp
  · exact microStep_latchHi hp
  · exact microStep_latchLo hp
  · exact microStep_rowA hp
  · exact microStep_rowB hp
  · exact microStep_advance hp
  · exact (microStep_oeOn (s := s.setEnv e) hp).trans (congrArg _ (finish_setEnv ((s.setOe true).emit (.pin .oe true)) e))

/-- A micro-step past CHECK is a run of one step. -/
theorem runsTo_of_microStep {x : Phase} (hp : s.phase = x) (h : microStep s = .next t) (hi : x ≠ .idle := by nofun)
    (hc : x ≠ .check := by nofun) : RunsTo 1 s t := by
  subst hp
  intro e he
  obtain ⟨e', he', -, hs⟩ := step_alone (s := s.setEnv e) he hi
  exact ⟨e', he', (runSteps_of_step 0 (hs.trans (microStep_setEnv (s := s) e' hc h))).trans rfl⟩

/-! ### The lazy init -/

/-- Where the first byte is transferred, with the transport configured. -/
def afterLazyInit (s : State) : State :=
  { s with trace := s.trace ++ initEvents s, initDone := true, phase := .shift 0 0 }

theorem runsTo_afterLazyInit (s : State) : RunsTo (if s.initDone then 0 else 2) (afterCheck s) (afterLazyInit s) := by
  rcases afterCheck_cases s with ⟨hi, ha⟩ | ⟨hi, ha⟩
  · have hs : s.setPhase (.shift 0 0) = afterLazyInit s := by
      simp [afterLazyInit, initEvents, hi, State.setPhase]
    rw [ha, hs, hi]
    exact runsTo_zero _
  · have run := (runsTo_of_microStep (x := .cfgFreq) rfl (microStep_cfgFreq (s := s.setPhase .cfgFreq) rfl)).trans
      (runsTo_of_microStep (x := .cfgMode) rfl (microStep_cfgMode rfl))
    rw [ha, hi]
    simpa [afterLazyInit, initEvents, hi, State.setPhase, State.emit, State.setInitDone] using run

/-! ### The bytes -/

/-- The state with another trace and phase: what the SHIFT micro-steps change. -/
def scanning (s : State) (l : List Event) (x : Phase) : State := { s with trace := l, phase := x }

theorem runsTo_byte {i : Nat} (k : Fin 4) (l : List Event) (hg : Geometry s) (hi : i < s.rowsize) :
    RunsTo 1 (scanning s l (.shift i k))
      (scanning s (l ++ [.byte (s.fbByte (shiftIndex s i k))]) (nextShift s.rowsize i k)) :=
  runsTo_of_microStep (x := .shift i k) rfl
    (microStep_shift (s := scanning s l (.shift i k)) rfl (shiftIndex_lt_fbSize (s := s) k hg hi))

/-- The four bytes of one i (R146). -/
theorem runsTo_column {i : Nat} (l : List Event) (hg : Geometry s) (hi : i < s.rowsize) :
    RunsTo 4 (scanning s l (.shift i 0)) (scanning s (l ++ columnEvents s i) (nextShift s.rowsize i 3)) := by
  have hevents : l ++ columnEvents s i = l ++ [.byte (s.fbByte (shiftIndex s i 0))] ++
      [.byte (s.fbByte (shiftIndex s i 1))] ++ [.byte (s.fbByte (shiftIndex s i 2))] ++
      [.byte (s.fbByte (shiftIndex s i 3))] := by
    simp only [List.append_assoc]
    rfl
  rw [hevents]
  exact (runsTo_byte 0 l hg hi).trans ((runsTo_byte 1 _ hg hi).trans ((runsTo_byte 2 _ hg hi).trans
    (runsTo_byte 3 _ hg hi)))

/-- The state after the bytes of the first `n` values of i. -/
def afterColumns (s : State) (n : Nat) : State :=
  scanning s (s.trace ++ (List.range n).flatMap (columnEvents s)) (if n < s.rowsize then .shift n 0 else .oeOff)

theorem runsTo_afterColumns (hg : Geometry s) (hp : s.phase = .shift 0 0) {n : Nat} (hn : n ≤ s.rowsize) :
    RunsTo (4 * n) s (afterColumns s n) := by
  induction n with
  | zero =>
    have hs : afterColumns s 0 = s := by simp [afterColumns, scanning, rowsize_pos hg, ← hp]
    rw [hs]
    exact runsTo_zero s
  | succ n ih =>
    have hlt : n < s.rowsize := hn
    have hrun := ih (Nat.le_of_succ_le hn)
    rw [afterColumns, if_pos hlt] at hrun
    rw [afterColumns, List.range_succ, List.flatMap_append, List.flatMap_singleton, ← List.append_assoc]
    exact hrun.trans (runsTo_column _ hg hlt)

/-! ### The pins -/

/-- The state after the micro-steps from OE_OFF to OE_ON. -/
def afterPins (s : State) : State :=
  { s with
    trace := s.trace ++ pinEvents s.seq
    seq := s.seq + 1#2
    pending := false
    phase := if s.pending then .check else .idle
    oe := true
    latch := false
    a := s.seq.getLsbD 0
    b := s.seq.getLsbD 1 }

theorem finish_eq (s : State) : finish s = { s with pending := false, phase := if s.pending then .check else .idle } := by
  cases hq : s.pending with
  | true => exact finish_of_pending hq
  | false => simp [finish_of_not_pending hq, hq]

theorem runsTo_afterPins (hp : s.phase = .oeOff) : RunsTo 7 s (afterPins s) := by
  have run := (runsTo_of_microStep hp (microStep_oeOff hp)).trans <|
    (runsTo_of_microStep (x := .latchHi) rfl (microStep_latchHi rfl)).trans <|
    (runsTo_of_microStep (x := .latchLo) rfl (microStep_latchLo rfl)).trans <|
    (runsTo_of_microStep (x := .rowA) rfl (microStep_rowA rfl)).trans <|
    (runsTo_of_microStep (x := .rowB) rfl (microStep_rowB rfl)).trans <|
    (runsTo_of_microStep (x := .advance) rfl (microStep_advance rfl)).trans <|
    runsTo_of_microStep (x := .oeOn) rfl (microStep_oeOn rfl)
  rw [finish_eq] at run
  simpa [afterPins, pinEvents, State.setPhase, State.emit, State.setOe, State.setLatch, State.setA, State.setB,
    State.setSeq] using run

/-! ### The whole refresh -/

/-- The state after the refresh that starts here (R156). -/
def afterRefresh (s : State) : State :=
  { s with
    trace := s.trace ++ refreshEvents s
    seq := s.seq + 1#2
    initDone := true
    pending := false
    phase := if s.pending then .check else .idle
    oe := true
    latch := false
    a := s.seq.getLsbD 0
    b := s.seq.getLsbD 1 }

theorem afterRefresh_eq (s : State) : afterPins (afterColumns (afterLazyInit s) s.rowsize) = afterRefresh s := by
  have htrace : s.trace ++ refreshEvents s = (s.trace ++ initEvents s ++
      (List.range s.rowsize).flatMap (columnEvents s)) ++ pinEvents s.seq := by
    simp only [refreshEvents, List.append_assoc]
  rw [afterRefresh, htrace]
  rfl

/-- From a passed CHECK on. -/
theorem runsTo_afterRefresh (hg : Geometry s) :
    RunsTo ((if s.initDone then 0 else 2) + (4 * s.rowsize + 7)) (afterCheck s) (afterRefresh s) := by
  have hinit : Geometry (afterLazyInit s) := geometry_of_fixedAtReset (s := s) rfl hg
  have hcols : RunsTo (4 * s.rowsize) (afterLazyInit s) (afterColumns (afterLazyInit s) s.rowsize) :=
    runsTo_afterColumns hinit rfl (Nat.le_refl s.rowsize)
  have hend : (afterColumns (afterLazyInit s) s.rowsize).phase = .oeOff := if_neg (Nat.lt_irrefl s.rowsize)
  rw [← afterRefresh_eq]
  exact (runsTo_afterLazyInit s).trans (hcols.trans (runsTo_afterPins hend))

theorem afterCheck_setEnv (s : State) (e : Env) : afterCheck (s.setEnv e) = (afterCheck s).setEnv e := by
  unfold afterCheck
  rw [State.setEnv_initDone]
  split
  · rfl
  · rfl

/-- CHECK goes on when the draw, after the turn is used up, is 0 (R143). -/
theorem step_check_free (hq : Quiet s.env) (hp : s.phase = .check) (hb : busyValue (useTurn s) = false) :
    ∃ e, Quiet e ∧ step s = .next ((afterCheck s).setEnv e) := by
  obtain ⟨e, ⟨hc, hn⟩, hu, hs⟩ := step_alone hq (by simp [hp])
  obtain ⟨e', he', hc', ht'⟩ := busyTaken_spec (s.setEnv e)
  refine ⟨e', ⟨hc'.trans hc, fun v hv => hn v (ht' ▸ hv)⟩, ?_⟩
  rw [hu] at hb
  rw [hs, microStep_check_free (s := s.setEnv e) hp hb, he']
  exact congrArg _ (afterCheck_setEnv s e')

theorem refreshSteps_eq (hg : Geometry s) :
    refreshSteps s = ((if s.initDone then 0 else 2) + (4 * s.rowsize + 7)) + 1 := by
  rw [refreshSteps, hg.rowsize_eq]
  omega

theorem runSteps_refreshSteps (hg : Geometry s) (hn : NoReset s) (hc : s.env.commands = []) (hp : s.phase = .check)
    (hb : busyValue (useTurn s) = false) : ∃ e, runSteps (refreshSteps s) s = .next ((afterRefresh s).setEnv e) := by
  obtain ⟨e, he, hs⟩ := step_check_free ⟨hc, hn⟩ hp hb
  obtain ⟨e', -, hrun⟩ := runsTo_afterRefresh hg e he
  exact ⟨e', by rw [refreshSteps_eq hg, runSteps_of_step _ hs, hrun]⟩

/-- Settles O47: CHECK, then the lazy init, the bytes and the pins, each a run of its own length. -/
theorem refreshEmitsItsTraceAndCompletes : Obligations.RefreshEmitsItsTraceAndCompletes := by
  intro s hs hn hc hp hb
  obtain ⟨e, hrun⟩ := runSteps_refreshSteps hs.geometry hn hc hp hb
  exact ⟨_, hrun, rfl⟩

/-! ### What the refresh leaves outside the block -/

/-- The four bytes of one i, from row slices `seq + 12`, `seq + 8`, `seq + 4` and `seq` (R157). -/
def columnBytes (s : State) (i : Nat) : List Byte :=
  [s.fbByte ((s.seq.toNat + 12) * s.rowsize + i), s.fbByte ((s.seq.toNat + 8) * s.rowsize + i),
    s.fbByte ((s.seq.toNat + 4) * s.rowsize + i), s.fbByte (s.seq.toNat * s.rowsize + i)]

theorem columnEvents_eq_bytes (hg : Geometry s) (i : Nat) : columnEvents s i = (columnBytes s i).map .byte := by
  obtain ⟨-, -, hrow, hrow1, hrow2, hrow3, -⟩ := hg
  have h₃ : s.rowsize * s.seq.toNat + i + s.row3 = (s.seq.toNat + 12) * s.rowsize + i := by
    rw [Nat.add_mul, Nat.mul_comm s.rowsize]; omega
  have h₂ : s.rowsize * s.seq.toNat + i + s.row2 = (s.seq.toNat + 8) * s.rowsize + i := by
    rw [Nat.add_mul, Nat.mul_comm s.rowsize]; omega
  have h₁ : s.rowsize * s.seq.toNat + i + s.row1 = (s.seq.toNat + 4) * s.rowsize + i := by
    rw [Nat.add_mul, Nat.mul_comm s.rowsize]; omega
  rw [columnEvents, h₃, h₂, h₁, Nat.mul_comm s.rowsize]
  rfl

/-- All bytes of one refresh, in order. -/
def refreshBytes (s : State) : List Byte := (List.range s.rowsize).flatMap (columnBytes s)

theorem refreshBytes_length (hg : Geometry s) : (refreshBytes s).length = 16 * s.params.panels := by
  have hrow : s.rowsize = 4 * s.params.panels := hg.rowsize_eq
  have hlen : (refreshBytes s).length = 4 * s.rowsize := by simp [refreshBytes, columnBytes, Nat.mul_comm]
  omega

theorem refreshEvents_eq_bytes (hg : Geometry s) :
    refreshEvents s = initEvents s ++ (refreshBytes s).map .byte ++ pinEvents s.seq := by
  rw [refreshEvents, refreshBytes, List.map_flatMap, funext (columnEvents_eq_bytes hg)]

theorem see_bytes (c : Params) (o : Outside) (bs : List Byte) :
    (bs.map Event.byte).foldl (Outside.see c) o = { o with chain := o.chain ++ bs } := by
  induction bs generalizing o with
  | nil => simp
  | cons v bs ih => simp [ih, Outside.see]

theorem see_pinEvents (c : Params) (o : Outside) (q : BitVec 2) :
    (pinEvents q).foldl (Outside.see c) o =
      { o with
        latched := lastBytes (16 * c.panels) o.chain
        oe := true
        lat := false
        a := q.getLsbD 0
        b := q.getLsbD 1 } := by
  simp [pinEvents, Outside.see]

theorem lastBytes_append {n : Nat} (l : List Byte) {bs : List Byte} (h : bs.length = n) : lastBytes n (l ++ bs) = bs := by
  rw [lastBytes, List.length_append, h, Nat.add_sub_cancel, List.drop_left]

/-- Whatever was outside before, a refresh leaves its own bytes latched and its own group on the lines. -/
theorem see_refreshEvents (hg : Geometry s) (o : Outside) :
    ∃ o' : Outside, (refreshEvents s).foldl (Outside.see s.params) o =
      { o' with latched := refreshBytes s, oe := true, lat := false, a := s.seq.getLsbD 0, b := s.seq.getLsbD 1 } := by
  rw [refreshEvents_eq_bytes hg, List.foldl_append, List.foldl_append, see_bytes, see_pinEvents,
    lastBytes_append _ (refreshBytes_length hg)]
  exact ⟨_, rfl⟩

/-- Settles O48: the refresh's events seen from the trace before them, and the latches A and B of its end. -/
theorem latchedDataAgreeWithTheSelectedGroup : Obligations.LatchedDataAgreeWithTheSelectedGroup := by
  intro s hs hn hc hp hb
  obtain ⟨e, hrun⟩ := runSteps_refreshSteps hs.geometry hn hc hp hb
  obtain ⟨o, ho⟩ := see_refreshEvents hs.geometry (outsideOf s.params s.trace)
  have hview : outsideOf s.params (s.trace ++ refreshEvents s) = _ := List.foldl_append.trans ho
  refine ⟨_, hrun, selectedGroup_of_rowSelect rfl, ?_⟩
  rw [show ((afterRefresh s).setEnv e).params = s.params from rfl,
    show ((afterRefresh s).setEnv e).trace = s.trace ++ refreshEvents s from rfl, hview]
  exact ⟨rfl, rfl, rfl, rfl, rfl⟩

end Sys2Proof.Machine
end

section
/-! PROOFS. The assembler's lines (30_encoding.md section 3): which lines are which command, and the words they make. -/

namespace Sys2Proof.Safety

open Sys2Proof.Machine

variable {line : List Char} {i : Instr}

/-! ### Lines that read as a command -/

/-- A line that reads as a command says a mnemonic and operands that are that command. -/
theorem says_of_parseLine_command (h : parseLine line = .command i) :
    ∃ M ns, LineSays line M ns ∧ parseCommand M ns = .command i := by
  have hb : parseLine line ≠ .blank := by simp [h]
  obtain ⟨b, m, rest, hl, hbl, hm, hn, hr⟩ := parseLine_parts hb
  rw [parseLine_of_parts hl hbl hm hn hr] at h
  cases ho : parseOperands rest with
  | none => simp [ho] at h
  | some ns =>
    rw [ho] at h
    exact ⟨_, ns, ⟨b, m, rest, hl, hbl, rfl, hr, parseOperands_eq_some.1 ho⟩, h⟩

theorem lineSpells_of_parseLine (h : parseLine line = .command i) : LineSpells line i := by
  obtain ⟨M, ns, hs, hc⟩ := says_of_parseLine_command h
  rcases parseCommand_eq_command hc with ⟨rfl, rfl, rfl⟩ | ⟨p, x, y, on, rfl, rfl, rfl⟩ | ⟨p, x, y, rfl, rfl, rfl⟩
  · exact hs
  · exact hs
  · exact hs

theorem parseLine_of_says_refresh (h : LineSays line ['R', 'E', 'F', 'R', 'E', 'S', 'H'] []) :
    parseLine line = .command .refresh :=
  parseLine_of_says (by simp) (by simp [isBlank]) h

/-- A SETPIXEL line is no command yet: `on` is still to be checked. -/
theorem parseLine_of_says_setPixel {ns : List Nat} (h : LineSays line ['S', 'E', 'T', 'P', 'I', 'X', 'E', 'L'] ns) :
    parseLine line = parseCommand ['S', 'E', 'T', 'P', 'I', 'X', 'E', 'L'] ns :=
  parseLine_of_says (by simp) (by simp [isBlank]) h

theorem parseLine_of_says_getPixel {p x y : Nat}
    (h : LineSays line ['G', 'E', 'T', 'P', 'I', 'X', 'E', 'L'] [p, x, y]) :
    parseLine line = .command (.getPixel p x y) :=
  parseLine_of_says (by simp) (by simp [isBlank]) h

theorem parseLine_of_lineSpells (h : LineSpells line i) : parseLine line = .command i := by
  cases i with
  | refresh => exact parseLine_of_says_refresh h
  | setPixel p x y on =>
    rw [parseLine_of_says_setPixel h]
    cases on with
    | false => rfl
    | true => rfl
  | getPixel p x y => exact parseLine_of_says_getPixel h

/-- An `on` above 1 is no SETPIXEL (R80). -/
theorem parseLine_of_on_above_one {p x y v : Nat}
    (h : LineSays line ['S', 'E', 'T', 'P', 'I', 'X', 'E', 'L'] [p, x, y, v]) (hv : 1 < v) : parseLine line = .error := by
  rw [parseLine_of_says_setPixel h]
  match v, hv with
  | n + 2, _ => rfl

/-! ### The word of a line -/

theorem assembleLine_of_wellFormed (h : parseLine line = .command i) (hw : i.wellFormed = true) :
    assembleLine line = .word (encode i) := by
  simp [assembleLine, h, hw]

theorem assembleLine_of_not_wellFormed (h : parseLine line = .command i) (hw : i.wellFormed = false) :
    assembleLine line = .error := by
  simp [assembleLine, h, hw]

theorem assembleLine_of_error (h : parseLine line = .error) : assembleLine line = .error := by
  simp [assembleLine, h]

theorem assembleLine_eq_word {w : Word} (h : assembleLine line = .word w) :
    ∃ i, parseLine line = .command i ∧ i.wellFormed = true ∧ encode i = w := by
  unfold assembleLine at h
  split at h
  · cases h
  · cases h
  · next i hp =>
    split at h
    · next hw => exact ⟨i, hp, hw, AssembledLine.word.inj h⟩
    · cases h

/-- Settles O52: reading and spelling agree by the two directions above, and a well-formed command's word decodes to it. -/
theorem assembledWordsDecodeToTheirLine : Obligations.AssembledWordsDecodeToTheirLine := by
  intro line
  refine ⟨fun i => ⟨lineSpells_of_parseLine, parseLine_of_lineSpells⟩,
    fun i hp hw => ⟨assembleLine_of_wellFormed hp hw, decodeOfEncodeIsTheCommand i hw⟩, fun w h => ?_,
    fun i => assembleLine_of_not_wellFormed, fun p x y v h hv => assembleLine_of_error (parseLine_of_on_above_one h hv)⟩
  obtain ⟨i, hp, hw, rfl⟩ := assembleLine_eq_word h
  exact ⟨i, hp, rfl, decodeOfEncodeIsTheCommand i hw⟩

end Sys2Proof.Safety
end
